-- ==== Sys2Proof/Word.lean ====
section
/-! DEFINITION. The word types of the hardware: bytes, 16-bit words, instruction fields, register and key numbers.
Every value is unsigned (R8, R94); bit 0 is the least significant bit (R6). -/

namespace Sys2Proof

/-- The 8-bit data path: a general register, a memory cell, a timer, the immediate NN (R1, R21, R27, R245). -/
abbrev Byte := BitVec 8

/-- A 16-bit value: an instruction word, I, PC, a stack slot (R23, R24, R25, R90). -/
abbrev Word := BitVec 16

/-- The 4-bit immediate N (R92). -/
abbrev Nibble := BitVec 4

/-- The 12-bit address immediate NNN (R92). -/
abbrev Addr12 := BitVec 12

/-- The number of a general register, V0 to VF (R21). -/
abbrev Reg := Fin 16

/-- The index of a key (R30). -/
abbrev Key := Fin 16

/-- V0, the offset register of `JP V0, nnn` (R21, R147). -/
abbrev V0 : Reg := 0

/-- VF, the flag register (R22). -/
abbrev VF : Reg := 15

end Sys2Proof
end

