-- ==== Sys2Proof/Config.lean ====
section
/-! DEFINITION. The parameters of the hardware (R5, 92_eei_decisions.md section 3) and its one free value (R174).
The spec decides each parameter and asks a model to carry it as a configuration field; `config` holds the decided
values and is what `step` runs with. The other values exist so that a claim can say which one it assumed. -/

namespace Sys2Proof

/-- ADDR_POLICY (R61, D5, U3): what an access above 0xFFF does. -/
inductive AddrPolicy where
  | fault  -- it raises AddressOutOfRange; no address is masked (decided)
  | mask   -- every effective address is reduced mod 4096
  deriving DecidableEq, Repr

/-- VF_WRITE_ORDER (R172, D4, U10): which of the two writes of a flag-writing ALU instruction comes last. -/
inductive VfWriteOrder where
  | flagLast    -- result to V[X], then flag to VF (decided)
  | resultLast
  deriving DecidableEq, Repr

/-- SHIFT_SOURCE (R169, R171, D3, U11): the register a shift reads. -/
inductive ShiftSource where
  | vx  -- V[X], in place (decided)
  | vy
  deriving DecidableEq, Repr

/-- KEY_INDEX_POLICY (R225, R226, D7, U12): what a key index above 15 does. -/
inductive KeyIndexPolicy where
  | fault          -- it raises KeyIndexOutOfRange (decided)
  | maskLowNibble  -- it is reduced to its low nibble
  deriving DecidableEq, Repr

/-- NONCANONICAL (R97, D2, U9): what a word with a set don't-care bit does. -/
inductive NonCanonical where
  | execute      -- it executes like the canonical encoding (decided)
  | unsupported
  deriving DecidableEq, Repr

/-- The parameters of R5 that a model carries as configuration fields; each default is the spec's decided value. -/
structure Config where
  /-- FONT_BASE (D8): where LD F expects the glyphs and loadFont puts them. -/
  fontBase : Nat := 0x050
  addrPolicy : AddrPolicy := .fault
  vfWriteOrder : VfWriteOrder := .flagLast
  shiftSource : ShiftSource := .vx
  keyIndexPolicy : KeyIndexPolicy := .fault
  nonCanonical : NonCanonical := .execute
  /-- SPRITE_MSB_LEFT (D9, U13): bit 7 of a sprite byte is its leftmost pixel. -/
  spriteMsbLeft : Bool := true
  deriving DecidableEq, Repr

/-- The hardware as the spec decides it (R5). -/
def config : Config := {}

/-- FREE VALUE (R174, R284, D11, U8): the byte that the n-th executed RND draws.
It has no body, so nothing can be proved of its value or of how two draws are related (log 2). -/
opaque Config.drawByte : Nat → Byte

/-- MEM_SIZE (R5). -/
abbrev memSize : Nat := 4096

/-- PROG_BASE and RESET_PC (R5). -/
abbrev progBase : Nat := 0x200

/-- GLYPH_BYTES (R5). -/
abbrev glyphBytes : Nat := 5

end Sys2Proof
end

