-- ==== Sys2Proof/Syntax.lean ====
section
/-! DEFINITION. The instruction set: one constructor for each row of the opcode map (R98), operands as the fields of R92.
Register and immediate operands have exactly their field's width, so every term names legal operands (R94). -/

namespace Sys2Proof

/-- The 34 instructions of R98, in the table's order. -/
inductive Instr where
  /-- 00E0 `CLS` (R211) -/
  | cls
  /-- 00EE `RET` (R140) -/
  | ret
  /-- 1NNN `JP nnn` (R141) -/
  | jp (nnn : Addr12)
  /-- 2NNN `CALL nnn` (R142) -/
  | call (nnn : Addr12)
  /-- 3XNN `SE Vx, nn` (R143) -/
  | seImm (x : Reg) (nn : Byte)
  /-- 4XNN `SNE Vx, nn` (R144) -/
  | sneImm (x : Reg) (nn : Byte)
  /-- 5XY0 `SE Vx, Vy` (R145) -/
  | seReg (x y : Reg)
  /-- 6XNN `LD Vx, nn` (R161) -/
  | ldImm (x : Reg) (nn : Byte)
  /-- 7XNN `ADD Vx, nn` (R162) -/
  | addImm (x : Reg) (nn : Byte)
  /-- 8XY0 `LD Vx, Vy` (R163) -/
  | ldReg (x y : Reg)
  /-- 8XY1 `OR Vx, Vy` (R164) -/
  | orReg (x y : Reg)
  /-- 8XY2 `AND Vx, Vy` (R165) -/
  | andReg (x y : Reg)
  /-- 8XY3 `XOR Vx, Vy` (R166) -/
  | xorReg (x y : Reg)
  /-- 8XY4 `ADD Vx, Vy` (R167) -/
  | addReg (x y : Reg)
  /-- 8XY5 `SUB Vx, Vy` (R168) -/
  | sub (x y : Reg)
  /-- 8XY6 `SHR Vx` (R169). Y is kept because SHIFT_SOURCE could name it (D3); as decided it is ignored. -/
  | shr (x y : Reg)
  /-- 8XY7 `SUBN Vx, Vy` (R170) -/
  | subn (x y : Reg)
  /-- 8XYE `SHL Vx` (R171). Y as in `shr`. -/
  | shl (x y : Reg)
  /-- 9XY0 `SNE Vx, Vy` (R146) -/
  | sneReg (x y : Reg)
  /-- ANNN `LD I, nnn` (R190) -/
  | ldI (nnn : Addr12)
  /-- BNNN `JP V0, nnn` (R147) -/
  | jpV0 (nnn : Addr12)
  /-- CXNN `RND Vx, nn` (R173) -/
  | rnd (x : Reg) (nn : Byte)
  /-- DXYN `DRW Vx, Vy, n` (R212) -/
  | drw (x y : Reg) (n : Nibble)
  /-- EX9E `SKP Vx` (R225) -/
  | skp (x : Reg)
  /-- EXA1 `SKNP Vx` (R226) -/
  | sknp (x : Reg)
  /-- FX07 `LD Vx, DT` (R240) -/
  | ldVxDt (x : Reg)
  /-- FX0A `LD Vx, K` (R227) -/
  | ldVxK (x : Reg)
  /-- FX15 `LD DT, Vx` (R241) -/
  | ldDtVx (x : Reg)
  /-- FX18 `LD ST, Vx` (R242) -/
  | ldStVx (x : Reg)
  /-- FX1E `ADD I, Vx` (R191) -/
  | addI (x : Reg)
  /-- FX29 `LD F, Vx` (R192) -/
  | ldF (x : Reg)
  /-- FX33 `LD B, Vx` (R193) -/
  | ldB (x : Reg)
  /-- FX55 `LD [I], Vx` (R194) -/
  | stRegs (x : Reg)
  /-- FX65 `LD Vx, [I]` (R195) -/
  | ldRegs (x : Reg)
  deriving DecidableEq, Repr

/-- The row of spec/opcode_table.json an instruction belongs to (R98). -/
def Instr.mnemonic : Instr → String
  | .cls => "CLS"
  | .ret => "RET"
  | .jp _ => "JP"
  | .call _ => "CALL"
  | .seImm _ _ => "SE_IMM"
  | .sneImm _ _ => "SNE_IMM"
  | .seReg _ _ => "SE_REG"
  | .ldImm _ _ => "LD_IMM"
  | .addImm _ _ => "ADD_IMM"
  | .ldReg _ _ => "LD_REG"
  | .orReg _ _ => "OR"
  | .andReg _ _ => "AND"
  | .xorReg _ _ => "XOR"
  | .addReg _ _ => "ADD_REG"
  | .sub _ _ => "SUB"
  | .shr _ _ => "SHR"
  | .subn _ _ => "SUBN"
  | .shl _ _ => "SHL"
  | .sneReg _ _ => "SNE_REG"
  | .ldI _ => "LD_I"
  | .jpV0 _ => "JP_V0"
  | .rnd _ _ => "RND"
  | .drw _ _ _ => "DRW"
  | .skp _ => "SKP"
  | .sknp _ => "SKNP"
  | .ldVxDt _ => "LD_VX_DT"
  | .ldVxK _ => "LD_VX_K"
  | .ldDtVx _ => "LD_DT_VX"
  | .ldStVx _ => "LD_ST_VX"
  | .addI _ => "ADD_I"
  | .ldF _ => "LD_F"
  | .ldB _ => "LD_B"
  | .stRegs _ => "ST_REGS"
  | .ldRegs _ => "LD_REGS"

end Sys2Proof
end

