-- ==== Sys2Proof/Machine/State.lean ====
section
/-! DEFINITION. The state of the machine (R20), as plain data, and its reset value (R37).
Also the reasons for which a step or a host operation can have no next state. -/

namespace Sys2Proof.Machine

/-- The four fatal conditions, in the order of their codes (R260, R265). Raising one is a NEXT state: the condition
is latched in `State.fault` and the machine is halted (R264, R272). -/
inductive Condition where
  | addressOutOfRange   -- R261
  | stackOverflow       -- R262
  | stackUnderflow      -- R263
  | keyIndexOutOfRange  -- R266
  deriving DecidableEq, Repr

/-- Main memory MEM (R27, R60): the cells that do not read as `Memory.blank`, by rising address. -/
abbrev Memory := List Host.Cell

/-- What an unlisted address reads as: the reset value of every cell (R27, R37). -/
abbrev Memory.blank : Byte := 0

/-- The frame buffer: `DISP[y][x]`, 32 rows of 64 one-bit pixels, true = set (R28, R210). -/
abbrev Display := Vector (Vector Bool 64) 32

/-- R20: the architectural state is exactly this, and `draws`, which is the model's own (log 2). -/
structure State where
  /-- V0 to VF (R21, R22). -/
  v : Vector Byte 16
  /-- The index register (R23). -/
  i : Word
  /-- The program counter (R24). -/
  pc : Word
  /-- The call stack's slots (R25). -/
  stack : Vector Word 16
  /-- The number of return addresses held, 0 to 16 (R26). -/
  sp : Fin 17
  /-- Main memory (R27). -/
  mem : Memory
  /-- The display (R28). -/
  disp : Display
  /-- DIRTY (R29). -/
  dirty : Bool
  /-- The keypad levels, true = pressed (R30). -/
  keys : Vector Bool 16
  /-- The delay timer (R31). -/
  dt : Byte
  /-- The sound timer (R32). -/
  st : Byte
  /-- The fault latch, `none` = None (R33). -/
  fault : Option Condition
  /-- How many random bytes have been drawn: the index of the next free value. The model's own (R174, log 2). -/
  draws : Nat
  deriving DecidableEq, Repr

/-- The machine right after construct or reset (R37, R300, R302). -/
def State.reset : State where
  v := Vector.replicate 16 0
  i := 0
  pc := 0x200
  stack := Vector.replicate 16 0
  sp := 0
  mem := []
  disp := Vector.replicate 32 (Vector.replicate 64 false)
  dirty := false
  keys := Vector.replicate 16 false
  dt := 0
  st := 0
  fault := none
  draws := 0

/-- Reasons for a step to stop without a next state. There is none: every failure the spec names is a latched
condition, that is, a next state (R264), a step while halted is a step that changes nothing (R127), and an
unsupported word is a reported no-op (R126). So this type has no constructor, which is safe and unsafe in no run (log 1). -/
inductive Fault where
  deriving DecidableEq, Repr

/-- Reasons for the model to give an instruction or a host operation no meaning. -/
inductive Refusal where
  /-- Raised by an arm of `exec` whose instruction has no meaning yet; safe. No arm raises it any more. -/
  | notModelled (mnemonic : String)
  /-- Raised by `Session.perform` when the host loads a program or a font after the first step: the lifecycle gives
  that no move (R306, D26, U19). Safe. No instruction raises it. -/
  | loadAfterFirstStep
  /-- Raised by `Session.perform` when the host loads a second program: "a program is loaded once" (R306, U19).
  Safe. No instruction raises it. -/
  | programAlreadyLoaded
  /-- Raised by `Session.perform` when the host steps before a program load has succeeded: a step is allowed "after
  loading" (R285, U4). Safe. No instruction raises it; the machine itself steps with nothing loaded too (R306). -/
  | stepBeforeLoad
  deriving DecidableEq, Repr

end Sys2Proof.Machine
end

