-- ==== Sys2Proof/Machine/Ops.lean ====
section
/-! DEFINITION. The named operations over registers and memory (R7, R61 to R63, R70), the baseline advance (R122),
and raising a condition (R264) with the all-or-nothing execute phase around it (R125). -/

namespace Sys2Proof.Machine

/-! ## Registers and the other parts of the state, by name (R7) -/

/-- `V[r]`. -/
def State.getV (s : State) (r : Reg) : Byte := s.v[r]

/-- `V[r] <- b`. -/
def State.setV (s : State) (r : Reg) (b : Byte) : State := { s with v := s.v.set r b }

/-- `I <- w`. -/
def State.setI (s : State) (w : Word) : State := { s with i := w }

/-- `pc <- w`. -/
def State.setPc (s : State) (w : Word) : State := { s with pc := w }

/-- `STACK[k] <- w`. -/
def State.setStack (s : State) (k : Fin 16) (w : Word) : State := { s with stack := s.stack.set k w }

/-- `SP <- n`. -/
def State.setSp (s : State) (n : Fin 17) : State := { s with sp := n }

/-- `MEM <- m`, all of it. -/
def State.setMem (s : State) (m : Memory) : State := { s with mem := m }

/-- `DISP <- d`, all of it. -/
def State.setDisp (s : State) (d : Display) : State := { s with disp := d }

/-- `DIRTY <- b`. -/
def State.setDirty (s : State) (b : Bool) : State := { s with dirty := b }

/-- `KEYS[k] <- b`. -/
def State.setKeyLevel (s : State) (k : Key) (b : Bool) : State := { s with keys := s.keys.set k b }

/-- `DT <- b`. -/
def State.setDt (s : State) (b : Byte) : State := { s with dt := b }

/-- `ST <- b`. -/
def State.setSt (s : State) (b : Byte) : State := { s with st := b }

/-- `FAULT <- f`. -/
def State.setFault (s : State) (f : Option Condition) : State := { s with fault := f }

/-- One more random byte has been drawn (R174). -/
def State.countDraw (s : State) : State := { s with draws := s.draws + 1 }

/-! ## Memory -/

/-- `MEM[a]` of an address inside memory. -/
def Memory.read : Memory → Nat → Byte
  | [], _ => Memory.blank
  | (k, b) :: m, a => if k = a then b else Memory.read m a

/-- Puts the cell `(a, b)` at its place by address. -/
def Memory.insert (a : Nat) (b : Byte) : Memory → Memory
  | [] => [(a, b)]
  | (k, c) :: m =>
    if a < k then (a, b) :: (k, c) :: m
    else if a = k then (a, b) :: m
    else (k, c) :: Memory.insert a b m

/-- Takes the cell of address `a` out. -/
def Memory.erase (a : Nat) (m : Memory) : Memory := m.filter fun cell => cell.1 ≠ a

/-- `MEM[a] <- b` of an address inside memory, keeping the canonical form. -/
def Memory.write (m : Memory) (a : Nat) (b : Byte) : Memory :=
  if b = Memory.blank then Memory.erase a m else Memory.insert a b m

/-- The canonical form from address `lo` up: strictly rising addresses inside memory, no cell that reads as an
unlisted address does. -/
def Memory.wfFrom (lo : Nat) : Memory → Bool
  | [] => true
  | (a, b) :: m => decide (lo ≤ a) && decide (a < memSize) && decide (b ≠ Memory.blank) && Memory.wfFrom (a + 1) m

/-- The canonical form of a memory: equal memories are equal lists. -/
def Memory.wf (m : Memory) : Bool := Memory.wfFrom 0 m

/-- The address decoder (R61, R70): whether the `n` bytes from `base` up are inside memory. An access to no byte
is never outside (R70). Under ADDR_POLICY = mask every access is inside (D5, U3). -/
def accessOk (c : Config) (base n : Nat) : Bool :=
  match c.addrPolicy with
  | .fault => n = 0 || base + n ≤ memSize
  | .mask => true

/-- The cell an effective address selects: itself, or its low 12 bits under ADDR_POLICY = mask (D5, U3). -/
def cellOf (c : Config) (a : Nat) : Nat :=
  match c.addrPolicy with
  | .fault => a
  | .mask => a % memSize

/-- The `n` bytes from `base` up, in ascending address order (R65, R67). -/
def Memory.readBytes (c : Config) (m : Memory) (base n : Nat) : List Byte :=
  (List.range n).map fun k => m.read (cellOf c (base + k))

/-- Byte writes at ascending addresses from `base` (R63, R65). -/
def Memory.writeBytes (c : Config) (m : Memory) (base : Nat) : List Byte → Memory
  | [] => m
  | b :: bs => Memory.writeBytes c (m.write (cellOf c base) b) (base + 1) bs

/-- Reads `n` bytes at `base`, or raises AddressOutOfRange (R62, R70). -/
def loadBytes (c : Config) (s : State) (base n : Nat) : Except Condition (List Byte) :=
  if accessOk c base n then .ok (s.mem.readBytes c base n) else .error .addressOutOfRange

/-- Writes `bs` from `base` up, or raises AddressOutOfRange before any of them is written (R63, R70). -/
def storeBytes (c : Config) (s : State) (base : Nat) (bs : List Byte) : Except Condition State :=
  if accessOk c base bs.length then .ok (s.setMem (s.mem.writeBytes c base bs)) else .error .addressOutOfRange

/-! ## The execute phase -/

/-- Baseline advance (R122): `pc <- PC + 2`. -/
def State.advance (s : State) : State := s.setPc (s.pc + 2)

/-- An additional 2 on top of the baseline advance when `taken` (R148). -/
def State.skipIf (s : State) (taken : Bool) : State := if taken then s.setPc (s.pc + 2) else s

/-- Fault entry (R264): FAULT holds the condition, everything else is as it was before the step, PC included. -/
def State.raise (s : State) (c : Condition) : State := s.setFault (some c)

/-- The phases 3 and 5 of a step (R120, R122, R125). `s` is the state before the step, PC at the instruction itself;
`rule` is the instruction's own rule and sees the advanced PC. If it completes, its writes are the step's result; if it
raises a condition, every write is discarded and the fault is entered (log 1). -/
def execute (rule : State → Except Condition State) (s : State) : Host.Outcome State Fault Refusal :=
  match rule s.advance with
  | .ok t => .next t
  | .error c => .next (s.raise c)

/-- Codes of the fault latch for a status output (R265). -/
def faultCode : Option Condition → Nat
  | none => 0
  | some .addressOutOfRange => 1
  | some .stackOverflow => 2
  | some .stackUnderflow => 3
  | some .keyIndexOutOfRange => 4

end Sys2Proof.Machine
end

