-- ==== Sys2Proof/Machine/Operands.lean ====
section
/-! DEFINITION. The operand forms: zero-extended immediates (R94), the one memory addressing mode `[I]` (R196),
the register a shift reads (R169), a key named by a register (R225), the font-glyph address (R192). -/

namespace Sys2Proof.Machine

/-- NNN as it goes into PC or I: zero-extended to 16 bits (R94). -/
def address (nnn : Addr12) : Word := nnn.setWidth 16

/-- The base of every data access: the value of I as an unbounded integer (R70, R196). -/
def State.base (s : State) : Nat := s.i.toNat

/-- The value a shift shifts (R169, R171, D3). -/
def shiftOperand (c : Config) (x y : Reg) (s : State) : Byte :=
  match c.shiftSource with
  | .vx => s.getV x
  | .vy => s.getV y

/-- The key a register names; `none` for a value above 15 (R225, R226), or its low nibble under
KEY_INDEX_POLICY = mask_low_nibble (D7, U12). -/
def keyIndex (c : Config) (b : Byte) : Option Key :=
  match c.keyIndexPolicy with
  | .fault => if h : b.toNat < 16 then some ⟨b.toNat, h⟩ else none
  | .maskLowNibble => some (Fin.ofNat 16 b.toNat)

/-- `FONT_BASE + 5 * V[X]`, the whole 8-bit value multiplied (R192). -/
def glyphAddress (c : Config) (b : Byte) : Word := BitVec.ofNat 16 (c.fontBase + glyphBytes * b.toNat)

/-- The target of `JP V0, nnn` (R147). -/
def offsetTarget (v0 : Byte) (nnn : Addr12) : Word := v0.setWidth 16 + nnn.setWidth 16

/-- `(I + zext_16(V[X])) mod 65536` (R191). -/
def indexSum (i : Word) (b : Byte) : Word := i + b.setWidth 16

/-- The decimal digits of a byte, hundreds first, one digit a byte (R193). -/
def bcdDigits (b : Byte) : List Byte :=
  [BitVec.ofNat 8 (b.toNat / 100), BitVec.ofNat 8 (b.toNat / 10 % 10), BitVec.ofNat 8 (b.toNat % 10)]

/-- V0 to Vx, V0 first (R65, R194). -/
def State.regsUpTo (s : State) (x : Reg) : List Byte :=
  (List.range (x.val + 1)).map fun k => s.getV (Fin.ofNat 16 k)

/-- Loads a list of bytes into V[k], V[k + 1], ... (R65, R195). -/
def State.loadRegsFrom (s : State) (k : Nat) : List Byte → State
  | [] => s
  | b :: bs => State.loadRegsFrom (s.setV (Fin.ofNat 16 k) b) (k + 1) bs

end Sys2Proof.Machine
end

