-- ==== Sys2Proof/Machine/Flags.lean ====
section
/-! DEFINITION. The five flag computations of the ALU (R22, R160) and the order in which result and flag are
written (R172). The sixth flag, DRW's collision, is computed where the sprite is drawn (DisplayUnit.lean). -/

namespace Sys2Proof.Machine

/-- A flag as VF holds it: 0 or 1 (R22). -/
def flagByte (f : Bool) : Byte := if f then 1 else 0

/-- The carry of ADD Vx, Vy: the 9-bit sum exceeds 255 (R167). -/
def carryFlag (a b : Byte) : Bool := 255 < a.toNat + b.toNat

/-- The flag of SUB and SUBN: strictly greater, so equal operands give 0 (R168, R170, U20). -/
def greaterFlag (a b : Byte) : Bool := b.toNat < a.toNat

/-- The bit SHR shifts out (R169). -/
def shrOut (a : Byte) : Bool := a.getLsbD 0

/-- The bit SHL shifts out (R171). -/
def shlOut (a : Byte) : Bool := a.getLsbD 7

/-- Writes a result to V[X] and a flag to VF, in the order of VF_WRITE_ORDER (R172, D4). -/
def State.writeResultAndFlag (c : Config) (s : State) (x : Reg) (result : Byte) (flag : Bool) : State :=
  match c.vfWriteOrder with
  | .flagLast => (s.setV x result).setV VF (flagByte flag)
  | .resultLast => (s.setV VF (flagByte flag)).setV x result

end Sys2Proof.Machine
end

