-- ==== Sys2Proof/Machine/Alu.lean ====
section
/-! DEFINITION. The load, arithmetic, logic, shift and random instructions (42_alu.md). Every operand is read before
any write (R7, R172); arithmetic wraps mod 256 (R160); none of them raises a condition. -/

namespace Sys2Proof.Machine

/-- R161 -/
def ldImmRule (x : Reg) (nn : Byte) (s : State) : Except Condition State :=
  .ok (s.setV x nn)

/-- R162: no flag effect. -/
def addImmRule (x : Reg) (nn : Byte) (s : State) : Except Condition State :=
  .ok (s.setV x (s.getV x + nn))

/-- R163 -/
def ldRegRule (x y : Reg) (s : State) : Except Condition State :=
  .ok (s.setV x (s.getV y))

/-- R164: VF is not reset. -/
def orRule (x y : Reg) (s : State) : Except Condition State :=
  .ok (s.setV x (s.getV x ||| s.getV y))

/-- R165 -/
def andRule (x y : Reg) (s : State) : Except Condition State :=
  .ok (s.setV x (s.getV x &&& s.getV y))

/-- R166 -/
def xorRule (x y : Reg) (s : State) : Except Condition State :=
  .ok (s.setV x (s.getV x ^^^ s.getV y))

/-- R167 -/
def addRegRule (c : Config) (x y : Reg) (s : State) : Except Condition State :=
  .ok (s.writeResultAndFlag c x (s.getV x + s.getV y) (carryFlag (s.getV x) (s.getV y)))

/-- R168 -/
def subRule (c : Config) (x y : Reg) (s : State) : Except Condition State :=
  .ok (s.writeResultAndFlag c x (s.getV x - s.getV y) (greaterFlag (s.getV x) (s.getV y)))

/-- R170 -/
def subnRule (c : Config) (x y : Reg) (s : State) : Except Condition State :=
  .ok (s.writeResultAndFlag c x (s.getV y - s.getV x) (greaterFlag (s.getV y) (s.getV x)))

/-- R169: a logical shift right by one. -/
def shrRule (c : Config) (x y : Reg) (s : State) : Except Condition State :=
  .ok (s.writeResultAndFlag c x (shiftOperand c x y s >>> 1) (shrOut (shiftOperand c x y s)))

/-- R171: a shift left by one, mod 256. -/
def shlRule (c : Config) (x y : Reg) (s : State) : Except Condition State :=
  .ok (s.writeResultAndFlag c x (shiftOperand c x y s <<< 1) (shlOut (shiftOperand c x y s)))

/-- R173, on the drawn byte `r`; the draw is counted so that the next one is a fresh value (R174). -/
def rndRule (r : Byte) (x : Reg) (nn : Byte) (s : State) : Except Condition State :=
  .ok ((s.setV x (r &&& nn)).countDraw)

/-- The byte the next RND draws: a free value (R174, log 2). -/
def State.draw (s : State) : Byte := Config.drawByte s.draws

/-- LD Vx, nn (R161). -/
def execLdImm (x : Reg) (nn : Byte) (s : State) : Host.Outcome State Fault Refusal := execute (ldImmRule x nn) s

/-- ADD Vx, nn (R162). -/
def execAddImm (x : Reg) (nn : Byte) (s : State) : Host.Outcome State Fault Refusal := execute (addImmRule x nn) s

/-- LD Vx, Vy (R163). -/
def execLdReg (x y : Reg) (s : State) : Host.Outcome State Fault Refusal := execute (ldRegRule x y) s

/-- OR Vx, Vy (R164). -/
def execOr (x y : Reg) (s : State) : Host.Outcome State Fault Refusal := execute (orRule x y) s

/-- AND Vx, Vy (R165). -/
def execAnd (x y : Reg) (s : State) : Host.Outcome State Fault Refusal := execute (andRule x y) s

/-- XOR Vx, Vy (R166). -/
def execXor (x y : Reg) (s : State) : Host.Outcome State Fault Refusal := execute (xorRule x y) s

/-- ADD Vx, Vy (R167). -/
def execAddReg (x y : Reg) (s : State) : Host.Outcome State Fault Refusal := execute (addRegRule config x y) s

/-- SUB Vx, Vy (R168). -/
def execSub (x y : Reg) (s : State) : Host.Outcome State Fault Refusal := execute (subRule config x y) s

/-- SUBN Vx, Vy (R170). -/
def execSubn (x y : Reg) (s : State) : Host.Outcome State Fault Refusal := execute (subnRule config x y) s

/-- SHR Vx (R169). -/
def execShr (x y : Reg) (s : State) : Host.Outcome State Fault Refusal := execute (shrRule config x y) s

/-- SHL Vx (R171). -/
def execShl (x y : Reg) (s : State) : Host.Outcome State Fault Refusal := execute (shlRule config x y) s

/-- RND Vx, nn (R173). -/
def execRnd (x : Reg) (nn : Byte) (s : State) : Host.Outcome State Fault Refusal := execute (rndRule s.draw x nn) s

end Sys2Proof.Machine
end

