-- ==== Sys2Proof/Machine/ControlFlow.lean ====
section
/-! DEFINITION. The control-flow instructions (41_control_flow.md). In a rule, `s.pc` is the advanced PC (R122). -/

namespace Sys2Proof.Machine

/-- R140: decrement SP, set PC to the popped address; StackUnderflow at SP = 0. The slot keeps its value (R25). -/
def retRule (s : State) : Except Condition State :=
  if h : s.sp.val = 0 then .error .stackUnderflow
  else
    let top : Fin 16 := ⟨s.sp.val - 1, by omega⟩
    .ok ((s.setSp top.castSucc).setPc s.stack[top])

/-- R141 -/
def jpRule (nnn : Addr12) (s : State) : Except Condition State :=
  .ok (s.setPc (address nnn))

/-- R142: push the advanced PC at STACK[SP], then jump; StackOverflow at SP = 16. -/
def callRule (nnn : Addr12) (s : State) : Except Condition State :=
  if h : s.sp.val < 16 then
    let slot : Fin 16 := ⟨s.sp.val, h⟩
    .ok (((s.setStack slot s.pc).setSp slot.succ).setPc (address nnn))
  else .error .stackOverflow

/-- R143 -/
def seImmRule (x : Reg) (nn : Byte) (s : State) : Except Condition State :=
  .ok (s.skipIf (s.getV x == nn))

/-- R144 -/
def sneImmRule (x : Reg) (nn : Byte) (s : State) : Except Condition State :=
  .ok (s.skipIf (s.getV x != nn))

/-- R145 -/
def seRegRule (x y : Reg) (s : State) : Except Condition State :=
  .ok (s.skipIf (s.getV x == s.getV y))

/-- R146 -/
def sneRegRule (x y : Reg) (s : State) : Except Condition State :=
  .ok (s.skipIf (s.getV x != s.getV y))

/-- R147: the offset is always V0; the sum is not masked. -/
def jpV0Rule (nnn : Addr12) (s : State) : Except Condition State :=
  .ok (s.setPc (offsetTarget (s.getV V0) nnn))

/-- RET (R140). -/
def execRet (s : State) : Host.Outcome State Fault Refusal := execute retRule s

/-- JP nnn (R141). -/
def execJp (nnn : Addr12) (s : State) : Host.Outcome State Fault Refusal := execute (jpRule nnn) s

/-- CALL nnn (R142). -/
def execCall (nnn : Addr12) (s : State) : Host.Outcome State Fault Refusal := execute (callRule nnn) s

/-- SE Vx, nn (R143). -/
def execSeImm (x : Reg) (nn : Byte) (s : State) : Host.Outcome State Fault Refusal := execute (seImmRule x nn) s

/-- SNE Vx, nn (R144). -/
def execSneImm (x : Reg) (nn : Byte) (s : State) : Host.Outcome State Fault Refusal := execute (sneImmRule x nn) s

/-- SE Vx, Vy (R145). -/
def execSeReg (x y : Reg) (s : State) : Host.Outcome State Fault Refusal := execute (seRegRule x y) s

/-- SNE Vx, Vy (R146). -/
def execSneReg (x y : Reg) (s : State) : Host.Outcome State Fault Refusal := execute (sneRegRule x y) s

/-- JP V0, nnn (R147). -/
def execJpV0 (nnn : Addr12) (s : State) : Host.Outcome State Fault Refusal := execute (jpV0Rule nnn) s

end Sys2Proof.Machine
end

