-- ==== Sys2Proof/Machine/DisplayUnit.lean ====
section
/-! DEFINITION. The frame buffer and the display instructions CLS and DRW (44_display.md). -/

namespace Sys2Proof.Machine

/-- `DISP[y][x]` (R210). -/
def Display.pixel (d : Display) (x : Fin 64) (y : Fin 32) : Bool := d[y][x]

/-- `DISP[y][x] <- DISP[y][x] XOR 1` (R212). -/
def Display.invert (d : Display) (x : Fin 64) (y : Fin 32) : Display := d.set y (d[y].set x (!d[y][x]))

/-- A display with every pixel unset. -/
def Display.clear : Display := Vector.replicate 32 (Vector.replicate 64 false)

/-- A column coordinate wrapped modulo the display's width (R210). -/
def wrapX (n : Nat) : Fin 64 := Fin.ofNat 64 n

/-- A row coordinate wrapped modulo the display's height (R210). -/
def wrapY (n : Nat) : Fin 32 := Fin.ofNat 32 n

/-- The bit of a sprite row that falls on sprite column `col`, 0 the leftmost (R212, SPRITE_MSB_LEFT D9). -/
def spriteBit (c : Config) (row : Byte) (col : Nat) : Bool :=
  row.getLsbD (if c.spriteMsbLeft then 7 - col else col)

/-- What a draw has done so far: the display, and whether a pixel went from set to unset. -/
structure Blit where
  disp : Display
  hit : Bool
  deriving DecidableEq, Repr

/-- One sprite bit that is 1, at display pixel (x, y) (R212). -/
def Blit.dot (b : Blit) (x : Fin 64) (y : Fin 32) : Blit where
  disp := b.disp.invert x y
  hit := b.hit || b.disp.pixel x y

/-- Sprite columns `col` of `cols` of one sprite row, left first (R212). -/
def Blit.columns (c : Config) (row : Byte) (x0 : Nat) (y : Fin 32) (b : Blit) : List Nat → Blit
  | [] => b
  | col :: cols =>
    Blit.columns c row x0 y (if spriteBit c row col then b.dot (wrapX (x0 + col)) y else b) cols

/-- The sprite's rows, top first, the first of them at display row `y0` (R212). -/
def Blit.rows (c : Config) (x0 y0 : Nat) (b : Blit) : List Byte → Blit
  | [] => b
  | row :: rest => Blit.rows c x0 (y0 + 1) (Blit.columns c row x0 (wrapY y0) b (List.range 8)) rest

/-- A whole sprite on a display (R212). -/
def Display.blit (c : Config) (d : Display) (x0 y0 : Nat) (sprite : List Byte) : Blit :=
  Blit.rows c x0 y0 ⟨d, false⟩ sprite

/-- R211: DIRTY is set even if nothing changed. -/
def clsRule (s : State) : Except Condition State :=
  .ok ((s.setDisp Display.clear).setDirty true)

/-- R212: the N sprite bytes are read, or AddressOutOfRange raised, before anything changes; the coordinates are read
before VF is written; VF and DIRTY are written always, for N = 0 too (D10). -/
def drwRule (c : Config) (x y : Reg) (n : Nibble) (s : State) : Except Condition State :=
  match loadBytes c s s.base n.toNat with
  | .ok sprite =>
    let b := s.disp.blit c (s.getV x).toNat (s.getV y).toNat sprite
    .ok (((s.setDisp b.disp).setV VF (flagByte b.hit)).setDirty true)
  | .error e => .error e

/-- CLS (R211). -/
def execCls (s : State) : Host.Outcome State Fault Refusal := execute clsRule s

/-- DRW Vx, Vy, n (R212). -/
def execDrw (x y : Reg) (n : Nibble) (s : State) : Host.Outcome State Fault Refusal := execute (drwRule config x y n) s

end Sys2Proof.Machine
end

