-- ==== Sys2Proof/Machine/IndexMemory.lean ====
section
/-! DEFINITION. The index-register and memory instructions (43_index_memory.md). The only addressing mode is `[I]`,
and no load or store changes I (R196). -/

namespace Sys2Proof.Machine

/-- R190 -/
def ldIRule (nnn : Addr12) (s : State) : Except Condition State :=
  .ok (s.setI (address nnn))

/-- R191: mod 65536, no flag, no mask, no fault. -/
def addIRule (x : Reg) (s : State) : Except Condition State :=
  .ok (s.setI (indexSum s.i (s.getV x)))

/-- R192: memory is not read. -/
def ldFRule (c : Config) (x : Reg) (s : State) : Except Condition State :=
  .ok (s.setI (glyphAddress c (s.getV x)))

/-- R193 -/
def ldBRule (c : Config) (x : Reg) (s : State) : Except Condition State :=
  storeBytes c s s.base (bcdDigits (s.getV x))

/-- R194 -/
def stRegsRule (c : Config) (x : Reg) (s : State) : Except Condition State :=
  storeBytes c s s.base (s.regsUpTo x)

/-- R195 -/
def ldRegsRule (c : Config) (x : Reg) (s : State) : Except Condition State :=
  match loadBytes c s s.base (x.val + 1) with
  | .ok bs => .ok (s.loadRegsFrom 0 bs)
  | .error e => .error e

/-- LD I, nnn (R190). -/
def execLdI (nnn : Addr12) (s : State) : Host.Outcome State Fault Refusal := execute (ldIRule nnn) s

/-- ADD I, Vx (R191). -/
def execAddI (x : Reg) (s : State) : Host.Outcome State Fault Refusal := execute (addIRule x) s

/-- LD F, Vx (R192). -/
def execLdF (x : Reg) (s : State) : Host.Outcome State Fault Refusal := execute (ldFRule config x) s

/-- LD B, Vx (R193). -/
def execLdB (x : Reg) (s : State) : Host.Outcome State Fault Refusal := execute (ldBRule config x) s

/-- LD [I], Vx (R194). -/
def execStRegs (x : Reg) (s : State) : Host.Outcome State Fault Refusal := execute (stRegsRule config x) s

/-- LD Vx, [I] (R195). -/
def execLdRegs (x : Reg) (s : State) : Host.Outcome State Fault Refusal := execute (ldRegsRule config x) s

end Sys2Proof.Machine
end

