-- ==== Sys2Proof/Machine/Keypad.lean ====
section
/-! DEFINITION. The keypad instructions (45_keypad.md): levels sampled in the execute phase (R228). -/

namespace Sys2Proof.Machine

/-- `KEYS[k]` (R30). -/
def State.keyDown (s : State) (k : Key) : Bool := s.keys[k]

/-- The least pressed key (R227). -/
def State.firstKey (s : State) : Option Key := (List.finRange 16).find? fun k => s.keyDown k

/-- R225 -/
def skpRule (c : Config) (x : Reg) (s : State) : Except Condition State :=
  match keyIndex c (s.getV x) with
  | some k => .ok (s.skipIf (s.keyDown k))
  | none => .error .keyIndexOutOfRange

/-- R226 -/
def sknpRule (c : Config) (x : Reg) (s : State) : Except Condition State :=
  match keyIndex c (s.getV x) with
  | some k => .ok (s.skipIf (!s.keyDown k))
  | none => .error .keyIndexOutOfRange

/-- R227: with no key pressed PC goes back to the instruction itself and nothing else changes. -/
def ldVxKRule (x : Reg) (s : State) : Except Condition State :=
  match s.firstKey with
  | some k => .ok (s.setV x (BitVec.ofNat 8 k.val))
  | none => .ok (s.setPc (s.pc - 2))

/-- SKP Vx (R225). -/
def execSkp (x : Reg) (s : State) : Host.Outcome State Fault Refusal := execute (skpRule config x) s

/-- SKNP Vx (R226). -/
def execSknp (x : Reg) (s : State) : Host.Outcome State Fault Refusal := execute (sknpRule config x) s

/-- LD Vx, K (R227). -/
def execLdVxK (x : Reg) (s : State) : Host.Outcome State Fault Refusal := execute (ldVxKRule x) s

end Sys2Proof.Machine
end

