-- ==== Sys2Proof/Machine/Timers.lean ====
section
/-! DEFINITION. The timer instructions and the tick operation (46_timers.md). -/

namespace Sys2Proof.Machine

/-- R240 -/
def ldVxDtRule (x : Reg) (s : State) : Except Condition State :=
  .ok (s.setV x s.dt)

/-- R241 -/
def ldDtVxRule (x : Reg) (s : State) : Except Condition State :=
  .ok (s.setDt (s.getV x))

/-- R242 -/
def ldStVxRule (x : Reg) (s : State) : Except Condition State :=
  .ok (s.setSt (s.getV x))

/-- LD Vx, DT (R240). -/
def execLdVxDt (x : Reg) (s : State) : Host.Outcome State Fault Refusal := execute (ldVxDtRule x) s

/-- LD DT, Vx (R241). -/
def execLdDtVx (x : Reg) (s : State) : Host.Outcome State Fault Refusal := execute (ldDtVxRule x) s

/-- LD ST, Vx (R242). -/
def execLdStVx (x : Reg) (s : State) : Host.Outcome State Fault Refusal := execute (ldStVxRule x) s

/-- A timer one tick later, floored at 0 (R243). -/
def countDown (b : Byte) : Byte := if b = 0 then 0 else b - 1

/-- The tick (R243), with its result: the audible-signal event, true iff ST was exactly 1 (R244). A halted machine
ignores it and signals nothing (R272). -/
def tick (s : State) : State × Bool :=
  if s.fault.isSome then (s, false)
  else ((s.setDt (countDown s.dt)).setSt (countDown s.st), s.st = 1)

end Sys2Proof.Machine
end

