-- ==== Sys2Proof/WellFormed.lean ====
section
/-! DEFINITION. Well-formed instructions. The operand types already hold every operand inside its field (R92, R94), so
register numbers, immediates and addresses need no check. What is left is R97: a shift's unused Y field is 0 in the
canonical encoding, the one an assembler emits. -/

namespace Sys2Proof

/-- The instruction is one an assembler emits (R97): a shift has Y = 0. -/
def Instr.wellFormed : Instr → Bool
  | .shr _ y => y = 0
  | .shl _ y => y = 0
  | _ => true

end Sys2Proof
end

