-- ==== Sys2Proof/Decode.lean ====
section
/-! DEFINITION. Decoding (R90 to R100, R123, R124) and, after it, encoding and the opcode map as a table (R98).
The opcode values are the spec's R98, supplied there from general knowledge (D1, log 4). -/

namespace Sys2Proof

/-- The group key and the five operand fields, cut from every word alike (R92, R123). -/
structure Fields where
  op : Nibble
  x : Reg
  y : Reg
  n : Nibble
  nn : Byte
  nnn : Addr12
  deriving DecidableEq, Repr

/-- R92, R123: OP = w[15:12], X = w[11:8], Y = w[7:4], N = w[3:0], NN = w[7:0], NNN = w[11:0]. -/
def fieldsOf (w : Word) : Fields where
  op := w.extractLsb' 12 4
  x := (w.extractLsb' 8 4).toFin
  y := (w.extractLsb' 4 4).toFin
  n := w.extractLsb' 0 4
  nn := w.extractLsb' 0 8
  nnn := w.extractLsb' 0 12

/-- Why bytes are no instruction. -/
inductive DecodeReject where
  /-- The word selects no row of R98 (R99). The step reports it and goes on (R126); it is no fault. -/
  | unsupported (w : Word)
  /-- Fewer than the two bytes of a word were given (R90). A step never meets it: the fetch reads two bytes. -/
  | truncated
  deriving DecidableEq, Repr

/-- Selects `i` for the word `w`. `canonical` says whether the don't-care bits of R97 are all zero in `w`; as the
spec decides NONCANONICAL they are not examined (R97, D2, log 5). -/
def accept (c : Config) (w : Word) (canonical : Bool) (i : Instr) : Except DecodeReject Instr :=
  match c.nonCanonical with
  | .execute => .ok i
  | .unsupported => if canonical then .ok i else .error (.unsupported w)

/-- Group 0: second dispatch on the low byte, X ignored (R96, R97 (a), R124). -/
def decodeGroup0 (c : Config) (w : Word) (f : Fields) : Except DecodeReject Instr :=
  match f.nn with
  | 0xE0#8 => accept c w (f.x = 0) .cls
  | 0xEE#8 => accept c w (f.x = 0) .ret
  | _ => .error (.unsupported w)

/-- Group 8: second dispatch on the low nibble (R96, R124). -/
def decodeGroup8 (c : Config) (w : Word) (f : Fields) : Except DecodeReject Instr :=
  match f.n with
  | 0x0#4 => .ok (.ldReg f.x f.y)
  | 0x1#4 => .ok (.orReg f.x f.y)
  | 0x2#4 => .ok (.andReg f.x f.y)
  | 0x3#4 => .ok (.xorReg f.x f.y)
  | 0x4#4 => .ok (.addReg f.x f.y)
  | 0x5#4 => .ok (.sub f.x f.y)
  | 0x6#4 => accept c w (f.y = 0) (.shr f.x f.y)
  | 0x7#4 => .ok (.subn f.x f.y)
  | 0xE#4 => accept c w (f.y = 0) (.shl f.x f.y)
  | _ => .error (.unsupported w)

/-- Group E: second dispatch on the low byte (R96, R124). -/
def decodeGroupE (w : Word) (f : Fields) : Except DecodeReject Instr :=
  match f.nn with
  | 0x9E#8 => .ok (.skp f.x)
  | 0xA1#8 => .ok (.sknp f.x)
  | _ => .error (.unsupported w)

/-- Group F: second dispatch on the low byte (R96, R124). -/
def decodeGroupF (w : Word) (f : Fields) : Except DecodeReject Instr :=
  match f.nn with
  | 0x07#8 => .ok (.ldVxDt f.x)
  | 0x0A#8 => .ok (.ldVxK f.x)
  | 0x15#8 => .ok (.ldDtVx f.x)
  | 0x18#8 => .ok (.ldStVx f.x)
  | 0x1E#8 => .ok (.addI f.x)
  | 0x29#8 => .ok (.ldF f.x)
  | 0x33#8 => .ok (.ldB f.x)
  | 0x55#8 => .ok (.stRegs f.x)
  | 0x65#8 => .ok (.ldRegs f.x)
  | _ => .error (.unsupported w)

/-- Primary dispatch on the high 4 bits (R95, R124), on a word whose fields are `f`. -/
def decodeFields (c : Config) (w : Word) (f : Fields) : Except DecodeReject Instr :=
  match f.op with
  | 0x0#4 => decodeGroup0 c w f
  | 0x1#4 => .ok (.jp f.nnn)
  | 0x2#4 => .ok (.call f.nnn)
  | 0x3#4 => .ok (.seImm f.x f.nn)
  | 0x4#4 => .ok (.sneImm f.x f.nn)
  | 0x5#4 => accept c w (f.n = 0) (.seReg f.x f.y)
  | 0x6#4 => .ok (.ldImm f.x f.nn)
  | 0x7#4 => .ok (.addImm f.x f.nn)
  | 0x8#4 => decodeGroup8 c w f
  | 0x9#4 => accept c w (f.n = 0) (.sneReg f.x f.y)
  | 0xA#4 => .ok (.ldI f.nnn)
  | 0xB#4 => .ok (.jpV0 f.nnn)
  | 0xC#4 => .ok (.rnd f.x f.nn)
  | 0xD#4 => .ok (.drw f.x f.y f.n)
  | 0xE#4 => decodeGroupE w f
  | _ => decodeGroupF w f

/-- The decoder (R100): total on every word, and it reads nothing but the word. -/
def decodeWord (c : Config) (w : Word) : Except DecodeReject Instr :=
  decodeFields c w (fieldsOf w)

/-- Two bytes as one word, the byte of the lower address in bits 15:8 (R62, R64, R91). -/
def wordOfBytes (atLower atHigher : Byte) : Word := atLower ++ atHigher

/-- The byte a word keeps at the lower address (R64). -/
def highByte (w : Word) : Byte := w.extractLsb' 8 8

/-- The byte a word keeps at the higher address (R64). -/
def lowByte (w : Word) : Byte := w.extractLsb' 0 8

/-- Decodes the first instruction of a byte string and gives the bytes after it (R90, R91). -/
def decodeBytes (c : Config) : List Byte → Except DecodeReject (Instr × List Byte)
  | hi :: lo :: rest =>
    match decodeWord c (wordOfBytes hi lo) with
    | .ok i => .ok (i, rest)
    | .error r => .error r
  | _ => .error .truncated

/-- The word whose bits are `w` in the opcode table's numbering; bits from `nbits` up are 0. -/
def tableWord (nbits w : Nat) : Word := BitVec.ofNat 16 (w % 2 ^ nbits)

/-- The instruction the decoder reads from a word of the opcode table, laid out in memory order. -/
def decodeTableWord (nbits w : Nat) : Option Instr :=
  match decodeBytes config [highByte (tableWord nbits w), lowByte (tableWord nbits w)] with
  | .ok (i, _) => some i
  | .error _ => none

/-! ## Encoding -/

/-- Format A (R93): OP, NNN. -/
def encA (op : Nibble) (nnn : Addr12) : Word := op ++ nnn

/-- Formats RI and RF (R93): OP, X, NN, where NN is an immediate or a function byte. -/
def encRI (op : Nibble) (x : Reg) (nn : Byte) : Word := op ++ BitVec.ofFin (w := 4) x ++ nn

/-- Format RR (R93): OP, X, Y, N, where N is an operand or a selector. -/
def encRR (op : Nibble) (x y : Reg) (n : Nibble) : Word :=
  op ++ BitVec.ofFin (w := 4) x ++ BitVec.ofFin (w := 4) y ++ n

/-- The word of an instruction (R98); on a well-formed one it is the canonical encoding (R97). -/
def encode : Instr → Word
  | .cls => 0x00E0#16
  | .ret => 0x00EE#16
  | .jp nnn => encA 0x1 nnn
  | .call nnn => encA 0x2 nnn
  | .seImm x nn => encRI 0x3 x nn
  | .sneImm x nn => encRI 0x4 x nn
  | .seReg x y => encRR 0x5 x y 0x0
  | .ldImm x nn => encRI 0x6 x nn
  | .addImm x nn => encRI 0x7 x nn
  | .ldReg x y => encRR 0x8 x y 0x0
  | .orReg x y => encRR 0x8 x y 0x1
  | .andReg x y => encRR 0x8 x y 0x2
  | .xorReg x y => encRR 0x8 x y 0x3
  | .addReg x y => encRR 0x8 x y 0x4
  | .sub x y => encRR 0x8 x y 0x5
  | .shr x y => encRR 0x8 x y 0x6
  | .subn x y => encRR 0x8 x y 0x7
  | .shl x y => encRR 0x8 x y 0xE
  | .sneReg x y => encRR 0x9 x y 0x0
  | .ldI nnn => encA 0xA nnn
  | .jpV0 nnn => encA 0xB nnn
  | .rnd x nn => encRI 0xC x nn
  | .drw x y n => encRR 0xD x y n
  | .skp x => encRI 0xE x 0x9E
  | .sknp x => encRI 0xE x 0xA1
  | .ldVxDt x => encRI 0xF x 0x07
  | .ldVxK x => encRI 0xF x 0x0A
  | .ldDtVx x => encRI 0xF x 0x15
  | .ldStVx x => encRI 0xF x 0x18
  | .addI x => encRI 0xF x 0x1E
  | .ldF x => encRI 0xF x 0x29
  | .ldB x => encRI 0xF x 0x33
  | .stRegs x => encRI 0xF x 0x55
  | .ldRegs x => encRI 0xF x 0x65

/-- The bytes of an instruction in memory order (R64). -/
def encodeBytes (i : Instr) : List Byte := [highByte (encode i), lowByte (encode i)]

/-! ## The opcode map as the spec tabulates it -/

/-- A row of R98: a word `w` selects it iff `w AND mask = pattern`. -/
structure OpcodeRow where
  mnemonic : String
  mask : Word
  pattern : Word
  deriving DecidableEq, Repr

/-- R98, rows 00E0 to 7XNN. -/
def opcodeRowsLow : List OpcodeRow :=
  [⟨"CLS", 0xF0FF, 0x00E0⟩, ⟨"RET", 0xF0FF, 0x00EE⟩, ⟨"JP", 0xF000, 0x1000⟩, ⟨"CALL", 0xF000, 0x2000⟩,
   ⟨"SE_IMM", 0xF000, 0x3000⟩, ⟨"SNE_IMM", 0xF000, 0x4000⟩, ⟨"SE_REG", 0xF000, 0x5000⟩,
   ⟨"LD_IMM", 0xF000, 0x6000⟩, ⟨"ADD_IMM", 0xF000, 0x7000⟩]

/-- R98, group 8. -/
def opcodeRowsAlu : List OpcodeRow :=
  [⟨"LD_REG", 0xF00F, 0x8000⟩, ⟨"OR", 0xF00F, 0x8001⟩, ⟨"AND", 0xF00F, 0x8002⟩, ⟨"XOR", 0xF00F, 0x8003⟩,
   ⟨"ADD_REG", 0xF00F, 0x8004⟩, ⟨"SUB", 0xF00F, 0x8005⟩, ⟨"SHR", 0xF00F, 0x8006⟩, ⟨"SUBN", 0xF00F, 0x8007⟩,
   ⟨"SHL", 0xF00F, 0x800E⟩]

/-- R98, rows 9XY0 to EXA1. -/
def opcodeRowsHigh : List OpcodeRow :=
  [⟨"SNE_REG", 0xF000, 0x9000⟩, ⟨"LD_I", 0xF000, 0xA000⟩, ⟨"JP_V0", 0xF000, 0xB000⟩, ⟨"RND", 0xF000, 0xC000⟩,
   ⟨"DRW", 0xF000, 0xD000⟩, ⟨"SKP", 0xF0FF, 0xE09E⟩, ⟨"SKNP", 0xF0FF, 0xE0A1⟩]

/-- R98, group F. -/
def opcodeRowsF : List OpcodeRow :=
  [⟨"LD_VX_DT", 0xF0FF, 0xF007⟩, ⟨"LD_VX_K", 0xF0FF, 0xF00A⟩, ⟨"LD_DT_VX", 0xF0FF, 0xF015⟩,
   ⟨"LD_ST_VX", 0xF0FF, 0xF018⟩, ⟨"ADD_I", 0xF0FF, 0xF01E⟩, ⟨"LD_F", 0xF0FF, 0xF029⟩,
   ⟨"LD_B", 0xF0FF, 0xF033⟩, ⟨"ST_REGS", 0xF0FF, 0xF055⟩, ⟨"LD_REGS", 0xF0FF, 0xF065⟩]

/-- The 34 rows of R98 in the table's order. -/
def opcodeTable : List OpcodeRow := opcodeRowsLow ++ opcodeRowsAlu ++ opcodeRowsHigh ++ opcodeRowsF

/-- The word selects the row (R98). -/
def OpcodeRow.selects (r : OpcodeRow) (w : Word) : Bool := w &&& r.mask = r.pattern

end Sys2Proof
end

