-- ==== Sys2Proof/Machine/Fetch.lean ====
section
/-! DEFINITION. The fetch (R121), the unsupported word and its report (R126), and placing a word where the next
fetch finds it. -/

namespace Sys2Proof.Machine

/-- R121: two consecutive bytes at PC, big-endian; AddressOutOfRange iff PC > 0xFFE. Any parity is legal (R66). -/
def fetchWord (c : Config) (s : State) : Except Condition Word :=
  if accessOk c s.pc.toNat 2 then
    .ok (wordOfBytes (s.mem.read (cellOf c s.pc.toNat)) (s.mem.read (cellOf c (s.pc.toNat + 1))))
  else .error .addressOutOfRange

/-- R126: an unsupported word has no effect beyond the baseline advance. -/
def execUnsupported (s : State) : Host.Outcome State Fault Refusal := .next s.advance

/-- The non-fatal diagnostic of a step (R126, D21): the word and the address it was fetched from. -/
structure Report where
  word : Word
  address : Word
  deriving DecidableEq, Repr

/-- The report of the step made from `s`: an output of that step, not state (R34, R126). A halted machine and a
fetch that raises report nothing (R127, R268). -/
def reportOf (c : Config) (s : State) : Option Report :=
  match s.fault, fetchWord c s with
  | none, .ok w =>
    match decodeWord c w with
    | .ok _ => none
    | .error _ => some ⟨w, s.pc⟩
  | _, _ => none

/-- Stores a word at PC, high byte first (R64). Where PC > 0xFFE there is no place the fetch could read. -/
def storeWordAtPc (s : State) (w : Word) : State :=
  if s.pc.toNat + 2 ≤ memSize then
    s.setMem ((s.mem.write s.pc.toNat (highByte w)).write (s.pc.toNat + 1) (lowByte w))
  else s

end Sys2Proof.Machine
end

