-- ==== Sys2Proof/Machine/Step.lean ====
section
/-! DEFINITION. One step (R120): halt check, fetch, decode, execute. The baseline advance is inside `exec` and
`execUnsupported`, since both see the state before it (log 1). -/

namespace Sys2Proof.Machine

/-- R120, R121, R124, R126, R127. -/
def step (s : State) : Host.Outcome State Fault Refusal :=
  match s.fault with
  | some _ => .next s
  | none =>
    match fetchWord config s with
    | .error c => .next (s.raise c)
    | .ok w =>
      match decodeWord config w with
      | .ok i => exec i s
      | .error _ => execUnsupported s

/-- `s` with a word of the opcode table where `step` fetches its next instruction (log 15). -/
def State.withFetchWord (s : State) (nbits w : Nat) : State := storeWordAtPc s (tableWord nbits w)

end Sys2Proof.Machine
end

