-- ==== Sys2Proof/Machine/HostPorts.lean ====
section
/-! DEFINITION. The host interface (R285): every operation the host can perform, with its result, and the boot order
in which the host may perform them (R306). -/

namespace Sys2Proof.Machine

/-- The result of a load: not latched, not a fault (R267, R304). -/
inductive LoadResult where
  | success
  | imageTooLarge
  deriving DecidableEq, Repr

/-- A load, whole or not at all: `bytes` from `base` up, all of them below `limit` (R303, R304, R305, D15). -/
def loadImage (base limit : Nat) (bytes : List Byte) (s : State) : State × LoadResult :=
  if base + bytes.length ≤ limit then (s.setMem (s.mem.writeBytes config base bytes), .success)
  else (s, .imageTooLarge)

/-- loadProgram (R303, R304). -/
def loadProgram (bytes : List Byte) (s : State) : State × LoadResult := loadImage progBase memSize bytes s

/-- loadFont (R305, D14). -/
def loadFont (bytes : List Byte) (s : State) : State × LoadResult := loadImage config.fontBase progBase bytes s

/-- construct and reset (R300, R302). Only the model's own count of drawn bytes goes on, so that the bytes drawn after
a reset are fresh as well (R174, log 2). -/
def construct (s : State) : State := { State.reset with draws := s.draws }

/-- setKey (R278). -/
def setKey (k : Key) (pressed : Bool) (s : State) : State := s.setKeyLevel k pressed

/-- clearDirty (R279, D25). -/
def clearDirty (s : State) : State := s.setDirty false

/-- readDisplay: a copy of the 2048 pixels, pixel (x, y) at index y * 64 + x (R279, D23). -/
def readDisplay (s : State) : Vector Bool 2048 :=
  Vector.ofFn fun k : Fin 2048 => (s.disp[k.val / 64]'(by omega))[k.val % 64]'(by omega)

/-- The operations of R285. -/
inductive HostOp where
  | construct
  | loadProgram (bytes : List Byte)
  | loadFont (bytes : List Byte)
  | step
  | tick
  | setKey (k : Key) (pressed : Bool)
  | readDisplay
  | readDirty
  | clearDirty
  | readFault
  deriving DecidableEq, Repr

/-- What an operation gives back to the host (R285). -/
inductive Response where
  | done
  | loaded (r : LoadResult)
  | stepped (report : Option Report)
  | ticked (soundEvent : Bool)
  | pixels (p : Vector Bool 2048)
  | dirty (d : Bool)
  | fault (f : Option Condition)
  deriving DecidableEq, Repr

/-- One operation of the host on the machine: the state after it and its result (R285). A step's stop would be the
operation's stop; no step stops (log 1). -/
def perform (op : HostOp) (s : State) : Host.Outcome (State × Response) Fault Refusal :=
  match op with
  | .construct => .next (construct s, .done)
  | .loadProgram bytes => .next ((loadProgram bytes s).1, .loaded (loadProgram bytes s).2)
  | .loadFont bytes => .next ((loadFont bytes s).1, .loaded (loadFont bytes s).2)
  | .step =>
    match step s with
    | .next t => .next (t, .stepped (reportOf config s))
    | .fault r => .fault r
    | .refused r => .refused r
  | .tick => .next ((tick s).1, .ticked (tick s).2)
  | .setKey k pressed => .next (setKey k pressed s, .done)
  | .readDisplay => .next (s, .pixels (readDisplay s))
  | .readDirty => .next (s, .dirty s.dirty)
  | .clearDirty => .next (clearDirty s, .done)
  | .readFault => .next (s, .fault s.fault)

/-- A machine together with how far its host is in the boot order (R306). The two flags are the host's, not the
hardware's: no instruction and no operation of the core sees them (R20, log 15). -/
structure Session where
  machine : State
  programLoaded : Bool
  started : Bool
  deriving DecidableEq, Repr

/-- A freshly constructed machine (R306 (1)). -/
def Session.fresh : Session := ⟨State.reset, false, false⟩

/-- The "when allowed" column of R285 (R306, D26, U4, U19): loads only before the first step, a program only once, a
step only after a program load that succeeded. -/
def Session.allowed (c : Session) : HostOp → Except Refusal Unit
  | .loadProgram _ =>
    if c.started then .error .loadAfterFirstStep
    else if c.programLoaded then .error .programAlreadyLoaded
    else .ok ()
  | .loadFont _ => if c.started then .error .loadAfterFirstStep else .ok ()
  | .step => if c.programLoaded then .ok () else .error .stepBeforeLoad
  | _ => .ok ()

/-- Where the host is in the boot order after an operation that gave `r`. -/
def Session.moveOn (c : Session) (s : State) (op : HostOp) (r : Response) : Session :=
  match op with
  | .construct => ⟨s, false, false⟩
  | .loadProgram _ => ⟨s, c.programLoaded || r = .loaded .success, c.started⟩
  | .step => ⟨s, c.programLoaded, true⟩
  | _ => { c with machine := s }

/-- One operation of a host that keeps to the boot order (R285, R306). -/
def Session.perform (op : HostOp) (c : Session) : Host.Outcome (Session × Response) Fault Refusal :=
  match c.allowed op with
  | .error r => .refused r
  | .ok () =>
    match Sys2Proof.Machine.perform op c.machine with
    | .next (s, r) => .next (c.moveOn s op r, r)
    | .fault r => .fault r
    | .refused r => .refused r

end Sys2Proof.Machine
end

