-- ==== Sys2Proof/Machine/Rules.lean ====
section
/-! DEFINITION. The same machine for any values of the parameters of R5: the rule of an instruction under a
configuration, and the step made of those rules. `step` is `stepWith config` (Laws/Step.lean); the other
configurations are there for claims that compare them (R316, D5). -/

namespace Sys2Proof.Machine

/-- The rule of an instruction on a state whose PC is advanced; `r` is the byte an RND draws. -/
def ruleOf (c : Config) (r : Byte) : Instr → State → Except Condition State
  | .cls => clsRule
  | .ret => retRule
  | .jp nnn => jpRule nnn
  | .call nnn => callRule nnn
  | .seImm x nn => seImmRule x nn
  | .sneImm x nn => sneImmRule x nn
  | .seReg x y => seRegRule x y
  | .ldImm x nn => ldImmRule x nn
  | .addImm x nn => addImmRule x nn
  | .ldReg x y => ldRegRule x y
  | .orReg x y => orRule x y
  | .andReg x y => andRule x y
  | .xorReg x y => xorRule x y
  | .addReg x y => addRegRule c x y
  | .sub x y => subRule c x y
  | .shr x y => shrRule c x y
  | .subn x y => subnRule c x y
  | .shl x y => shlRule c x y
  | .sneReg x y => sneRegRule x y
  | .ldI nnn => ldIRule nnn
  | .jpV0 nnn => jpV0Rule nnn
  | .rnd x nn => rndRule r x nn
  | .drw x y n => drwRule c x y n
  | .skp x => skpRule c x
  | .sknp x => sknpRule c x
  | .ldVxDt x => ldVxDtRule x
  | .ldVxK x => ldVxKRule x
  | .ldDtVx x => ldDtVxRule x
  | .ldStVx x => ldStVxRule x
  | .addI x => addIRule x
  | .ldF x => ldFRule c x
  | .ldB x => ldBRule c x
  | .stRegs x => stRegsRule c x
  | .ldRegs x => ldRegsRule c x

/-- A step (R120) under the parameters `c` in which an RND draws the byte `r` (R174). -/
def stepWith (c : Config) (r : Byte) (s : State) : Host.Outcome State Fault Refusal :=
  match s.fault with
  | some _ => .next s
  | none =>
    match fetchWord c s with
    | .error e => .next (s.raise e)
    | .ok w =>
      match decodeWord c w with
      | .ok i => execute (ruleOf c r i) s
      | .error _ => execUnsupported s

end Sys2Proof.Machine
end

