-- ==== Sys2Proof/Safety.lean ====
section
/-! DEFINITION. The vocabulary of the claims: the parts of a state and frames over them, the invariant of every run
(R40), the tables of R128 (the PC law) and R261 to R266 (who raises what), the pixels a sprite covers (R212), and what
no program can see (R25, R29, R32). A safe run is one whose states meet `State.Inv` and have no fault latched (R272). -/

namespace Sys2Proof.Machine

/-! ## Frames -/

/-- The parts a state is made of (R20), memory and display cell by cell; `draws` is the model's own (log 2). -/
inductive Part where
  | v (r : Reg)
  | i
  | pc
  | stack (k : Fin 16)
  | sp
  | mem (a : Nat)
  | pixel (x : Fin 64) (y : Fin 32)
  | dirty
  | key (k : Key)
  | dt
  | st
  | fault
  | draws
  deriving DecidableEq, Repr

/-- The part holds the same value in both states; a memory cell through the model's read of one byte. -/
def Part.same (s t : State) : Part → Prop
  | .v r => t.getV r = s.getV r
  | .i => t.i = s.i
  | .pc => t.pc = s.pc
  | .stack k => t.stack[k] = s.stack[k]
  | .sp => t.sp = s.sp
  | .mem a => t.mem.read a = s.mem.read a
  | .pixel x y => t.disp.pixel x y = s.disp.pixel x y
  | .dirty => t.dirty = s.dirty
  | .key k => t.keyDown k = s.keyDown k
  | .dt => t.dt = s.dt
  | .st => t.st = s.st
  | .fault => t.fault = s.fault
  | .draws => t.draws = s.draws

/-- Every part but the listed ones is the same in `t` as in `s`. -/
def ChangesOnly (parts : List Part) (s t : State) : Prop := ∀ p, p ∉ parts → p.same s t

/-- The memory cells of the `n` bytes from `base` up. -/
def cellsAt (base n : Nat) : List Part := (List.range n).map fun k => .mem (base + k)

/-- Every pixel. -/
def Part.isPixel : Part → Bool
  | .pixel _ _ => true
  | _ => false

/-! ## The invariant of every run -/

/-- R40, with the memory's canonical form: PC at most 0x10FE, every live stack slot in 2 to 0x1000. That SP is at
most 16 and every other range of R40 is in the types. -/
structure State.Inv (s : State) : Prop where
  memWf : s.mem.wf = true
  pcBound : s.pc.toNat ≤ 0x10FE
  liveSlots : ∀ k : Fin 16, k.val < s.sp.val → 2 ≤ s.stack[k].toNat ∧ s.stack[k].toNat ≤ 0x1000

/-! ## The tables of the spec -/

/-- The table of R128: PC after a step that executes `i` from `s` and raises nothing; `s.pc` is P. -/
def pcAfter (i : Instr) (s : State) : Word :=
  match i with
  | .jp nnn => nnn.setWidth 16
  | .call nnn => nnn.setWidth 16
  | .jpV0 nnn => (s.getV 0).setWidth 16 + nnn.setWidth 16
  | .ret => if h : 0 < s.sp.val then s.stack[s.sp.val - 1] else s.pc
  | .seImm x nn => if s.getV x = nn then s.pc + 4 else s.pc + 2
  | .sneImm x nn => if s.getV x ≠ nn then s.pc + 4 else s.pc + 2
  | .seReg x y => if s.getV x = s.getV y then s.pc + 4 else s.pc + 2
  | .sneReg x y => if s.getV x ≠ s.getV y then s.pc + 4 else s.pc + 2
  | .skp x => if ∃ k : Key, k.val = (s.getV x).toNat ∧ s.keyDown k = true then s.pc + 4 else s.pc + 2
  | .sknp x => if ∃ k : Key, k.val = (s.getV x).toNat ∧ s.keyDown k = false then s.pc + 4 else s.pc + 2
  | .ldVxK _ => if ∃ k : Key, s.keyDown k = true then s.pc + 2 else s.pc
  | _ => s.pc + 2

/-- The condition that executing `i` from `s` raises, if any: R261 (data accesses), R262, R263, R266. -/
def raisedBy (i : Instr) (s : State) : Option Condition :=
  match i with
  | .call _ => if s.sp.val = 16 then some .stackOverflow else none
  | .ret => if s.sp.val = 0 then some .stackUnderflow else none
  | .skp x => if 15 < (s.getV x).toNat then some .keyIndexOutOfRange else none
  | .sknp x => if 15 < (s.getV x).toNat then some .keyIndexOutOfRange else none
  | .drw _ _ n => if 0 < n.toNat ∧ 0xFFF < s.i.toNat + n.toNat - 1 then some .addressOutOfRange else none
  | .ldB _ => if 0xFFF < s.i.toNat + 2 then some .addressOutOfRange else none
  | .stRegs x => if 0xFFF < s.i.toNat + x.val then some .addressOutOfRange else none
  | .ldRegs x => if 0xFFF < s.i.toNat + x.val then some .addressOutOfRange else none
  | _ => none

/-- The registers an instruction may write, as R22 and the instruction rules name them: its destination, and VF for
the six flag-writing instructions. -/
def writesV (i : Instr) (r : Reg) : Bool :=
  match i with
  | .ldImm x _ | .addImm x _ | .ldReg x _ | .orReg x _ | .andReg x _ | .xorReg x _ | .rnd x _ | .ldVxDt x | .ldVxK x => r = x
  | .addReg x _ | .sub x _ | .subn x _ | .shr x _ | .shl x _ => r = x || r = VF
  | .drw _ _ _ => r = VF
  | .ldRegs x => r.val ≤ x.val
  | _ => false

/-- The bits of an instruction's words that its decoding ignores and its term does not keep (R97 (a), (b)). -/
def dontCareBits : Instr → Word
  | .cls | .ret => 0x0F00
  | .seReg _ _ | .sneReg _ _ => 0x000F
  | _ => 0

/-- The unsupported words, group by group (R99). -/
def unsupportedWord (w : Word) : Prop :=
  let op := w.toNat / 0x1000
  let low := w.toNat % 0x100
  let sel := w.toNat % 0x10
  op = 0x0 ∧ low ≠ 0xE0 ∧ low ≠ 0xEE ∨
  op = 0x8 ∧ (sel = 0x8 ∨ sel = 0x9 ∨ sel = 0xA ∨ sel = 0xB ∨ sel = 0xC ∨ sel = 0xD ∨ sel = 0xF) ∨
  op = 0xE ∧ low ≠ 0x9E ∧ low ≠ 0xA1 ∨
  op = 0xF ∧ low ≠ 0x07 ∧ low ≠ 0x0A ∧ low ≠ 0x15 ∧ low ≠ 0x18 ∧ low ≠ 0x1E ∧ low ≠ 0x29 ∧ low ≠ 0x33 ∧
    low ≠ 0x55 ∧ low ≠ 0x65

/-! ## The bytes after a store -/

/-- What address `a` holds once the bytes `bs` are stored from `base` up in `s` (R63, R65). -/
def byteAfterStore (s : State) (base : Nat) (bs : List Byte) (a : Nat) : Byte :=
  if h : base ≤ a ∧ a < base + bs.length then bs[a - base] else s.mem.read a

/-! ## The sprite of a draw -/

/-- A sprite bit that is 1 falls on display pixel (px, py): the sprite is the `n` bytes at I of `s`, drawn at (x0, y0),
bit 7 of a byte leftmost, both coordinates wrapped per pixel (R212). -/
def SpriteCovers (s : State) (x0 y0 : Byte) (n : Nibble) (px : Fin 64) (py : Fin 32) : Prop :=
  ∃ r < n.toNat, ∃ c < 8, px.val = (x0.toNat + c) % 64 ∧ py.val = (y0.toNat + r) % 32 ∧
    (s.mem.read (s.i.toNat + r)).getLsbD (7 - c) = true

/-! ## What no program can see -/

/-- The two states differ at most in stale stack slots (R25), ST (R32) and DIRTY (R29). -/
structure AgreeForPrograms (s t : State) : Prop where
  v : t.v = s.v
  i : t.i = s.i
  pc : t.pc = s.pc
  sp : t.sp = s.sp
  liveSlots : ∀ k : Fin 16, k.val < s.sp.val → t.stack[k] = s.stack[k]
  mem : t.mem = s.mem
  disp : t.disp = s.disp
  keys : t.keys = s.keys
  dt : t.dt = s.dt
  fault : t.fault = s.fault
  draws : t.draws = s.draws

/-- `n` ticks one after the other: the state after them and the sound event of the last one (R243). -/
def ticks : Nat → State → State
  | 0, s => s
  | n + 1, s => ticks n (tick s).1

end Sys2Proof.Machine
end

