-- ==== Sys2Proof/Certificates/Slice0/Obligations.lean ====
section
/-! DEFINITION. The statements for the provers. `s` is any state before the operation, reachable or not, with PC at the
instruction itself. "The frame" is `ChangesOnly`: every part not listed is as it was. Where a clause rests on a point
the spec marks as its own decision (D<n>), the docstring says so. -/

open Sys2Proof Sys2Proof.Machine

/-! ## Reset, the step and the fault latch -/

/-- R300: construct gives PC = 0x200 and everything else 0, FAULT = None, from any machine. -/
def Obligations.ConstructGivesResetState : Prop :=
  ∀ s : State, ∃ t, perform .construct s = .next (t, .done) ∧
    t.pc = 0x200 ∧ (∀ r, t.getV r = 0) ∧ t.i = 0 ∧ t.sp = 0 ∧ (∀ k : Fin 16, t.stack[k] = 0) ∧
    (∀ a, t.mem.read a = 0) ∧ (∀ x y, t.disp.pixel x y = false) ∧ t.dirty = false ∧ (∀ k, t.keyDown k = false) ∧
    t.dt = 0 ∧ t.st = 0 ∧ t.fault = none

/-- R120, R122, R124, R125: on a machine with no fault latched whose two bytes at PC decode to `i`, a step is exec of
`i`; and exec applies the rule of `i` to the state with PC advanced by 2, keeping the rule's result if it completes and
otherwise only latching the condition (all-or-nothing and the latch: D6, log 1). -/
def Obligations.StepRunsDecodedInstruction : Prop :=
  ∀ (s : State) (i : Instr), s.fault = none → s.pc.toNat ≤ 0xFFE →
    decodeBytes config [s.mem.read s.pc.toNat, s.mem.read (s.pc.toNat + 1)] = .ok (i, []) →
    step s = exec i s ∧
    exec i s = (match ruleOf config s.draw i { s with pc := s.pc + 2 } with
      | .ok t => .next t
      | .error c => .next { s with fault := some c })

/-- R127, R272 (D20): while a fault is latched a step and a tick change nothing; the step reports nothing and the tick
signals no sound. -/
def Obligations.HaltedStepAndTickChangeNothing : Prop :=
  ∀ s : State, s.fault ≠ none →
    step s = .next s ∧ reportOf config s = none ∧ tick s = (s, false)

/-- R121, R261 (D5, D6): a step with PC above 0xFFE latches AddressOutOfRange and changes nothing else. -/
def Obligations.FetchOutsideMemoryFaults : Prop :=
  ∀ s : State, s.fault = none → 0xFFE < s.pc.toNat →
    step s = .next { s with fault := some .addressOutOfRange } ∧ reportOf config s = none

/-- R126 (the report's content: D21): a step on an unsupported word advances PC by 2, changes nothing else, and reports
the word and its address; a step on a supported word reports nothing. -/
def Obligations.UnsupportedWordIsReportedAndSkipped : Prop :=
  ∀ (s : State) (w : Word), s.fault = none → s.pc.toNat ≤ 0xFFE →
    wordOfBytes (s.mem.read s.pc.toNat) (s.mem.read (s.pc.toNat + 1)) = w →
    (unsupportedWord w →
      (∃ t, step s = .next t ∧ t.pc = s.pc + 2 ∧ ChangesOnly [.pc] s t) ∧ reportOf config s = some ⟨w, s.pc⟩) ∧
    (¬ unsupportedWord w → reportOf config s = none)

/-- R120: a step always completes; it answers a next state on every state. -/
def Obligations.EveryStepCompletes : Prop :=
  ∀ s : State, ∃ t, step s = .next t

/-- R125, R261 to R269 (D6, D7 for the mechanism): on every state each instruction either raises exactly the condition
the spec's table gives, leaving all of the state but FAULT as it was, or completes and leaves FAULT alone. -/
def Obligations.InstructionsRaiseExactlyTheTabledConditions : Prop :=
  ∀ (i : Instr) (s : State),
    match raisedBy i s with
    | some c => exec i s = .next { s with fault := some c }
    | none => ∃ t, exec i s = .next t ∧ t.fault = s.fault

/-- R128: PC after a step that raises nothing is as the table says, P + 2 after an unsupported word; PC after a step
that raises is P (R125, D6). -/
def Obligations.PcAfterStepFollowsTheLaw : Prop :=
  ∀ (s t : State) (w : Word), s.fault = none → fetchWord config s = .ok w → step s = .next t →
    (t.fault = none → match decodeWord config w with
      | .ok i => t.pc = pcAfter i s
      | .error _ => t.pc = s.pc + 2) ∧
    (t.fault ≠ none → t.pc = s.pc)

/-! ## Control flow -/

/-- R141 -/
def Obligations.JumpSetsPcToTarget : Prop :=
  ∀ (nnn : Addr12) (s : State), ∃ t, exec (.jp nnn) s = .next t ∧
    t.pc.toNat = nnn.toNat ∧ ChangesOnly [.pc] s t

/-- R147: the offset is V0 and the sum is not masked. -/
def Obligations.OffsetJumpAddsV0 : Prop :=
  ∀ (nnn : Addr12) (s : State), ∃ t, exec (.jpV0 nnn) s = .next t ∧
    t.pc.toNat = (s.getV 0).toNat + nnn.toNat ∧ ChangesOnly [.pc] s t

/-- R142 (the slot order: D16, log 13): with fewer than 16 return addresses held, CALL writes the address of the next
instruction into slot SP, increments SP and jumps. -/
def Obligations.CallPushesReturnAddress : Prop :=
  ∀ (nnn : Addr12) (s : State) (k : Fin 16), k.val = s.sp.val →
    ∃ t, exec (.call nnn) s = .next t ∧
      t.stack[k] = s.pc + 2 ∧ t.sp.val = s.sp.val + 1 ∧ t.pc.toNat = nnn.toNat ∧
      ChangesOnly [.pc, .sp, .stack k] s t

/-- R140: with a return address held, RET decrements SP and sets PC to the slot just vacated, which keeps its value. -/
def Obligations.ReturnPopsAddress : Prop :=
  ∀ (s : State) (k : Fin 16), k.val + 1 = s.sp.val →
    ∃ t, exec .ret s = .next t ∧ t.sp.val = k.val ∧ t.pc = s.stack[k] ∧ ChangesOnly [.pc, .sp] s t

/-- R262, R263 (the latch: D6): the seventeenth nested call and a return with nothing on the stack latch their
condition and change nothing else. -/
def Obligations.StackLimitsFault : Prop :=
  (∀ (nnn : Addr12) (s : State), s.sp.val = 16 →
    exec (.call nnn) s = .next { s with fault := some .stackOverflow }) ∧
  (∀ s : State, s.sp.val = 0 → exec .ret s = .next { s with fault := some .stackUnderflow })

/-- R150: a return executed when the stack is as the call left it restores PC to the pushed address; neither touches V,
I or the timers; a call at 16 live calls latches StackOverflow (the latch: D6; the slot order: D16, log 13). -/
def Obligations.ReturnRestoresCallersPc : Prop :=
  (∀ (nnn : Addr12) (s : State), s.sp.val < 16 →
    ∃ t, exec (.call nnn) s = .next t ∧ (∀ r, t.getV r = s.getV r) ∧ t.i = s.i ∧ t.dt = s.dt ∧ t.st = s.st ∧
      ∀ u : State, u.sp = t.sp → u.stack = t.stack →
        ∃ w, exec .ret u = .next w ∧ w.pc = s.pc + 2 ∧ w.sp = s.sp ∧
          (∀ r, w.getV r = u.getV r) ∧ w.i = u.i ∧ w.dt = u.dt ∧ w.st = u.st) ∧
  (∀ (nnn : Addr12) (s : State), s.sp.val = 16 →
    ∃ t, exec (.call nnn) s = .next t ∧ t.fault = some .stackOverflow)

/-- R143, R144 -/
def Obligations.ImmediateSkipsCompareRegister : Prop :=
  ∀ (x : Reg) (nn : Byte) (s : State),
    (∃ t, exec (.seImm x nn) s = .next t ∧
      t.pc = (if (s.getV x).toNat = nn.toNat then s.pc + 4 else s.pc + 2) ∧ ChangesOnly [.pc] s t) ∧
    (∃ t, exec (.sneImm x nn) s = .next t ∧
      t.pc = (if (s.getV x).toNat = nn.toNat then s.pc + 2 else s.pc + 4) ∧ ChangesOnly [.pc] s t)

/-- R145, R146 (that the low nibble of their words is ignored: D2, in `DecodingIgnoresOnlyDontCareBits`). -/
def Obligations.RegisterSkipsCompareRegisters : Prop :=
  ∀ (x y : Reg) (s : State),
    (∃ t, exec (.seReg x y) s = .next t ∧
      t.pc = (if (s.getV x).toNat = (s.getV y).toNat then s.pc + 4 else s.pc + 2) ∧ ChangesOnly [.pc] s t) ∧
    (∃ t, exec (.sneReg x y) s = .next t ∧
      t.pc = (if (s.getV x).toNat = (s.getV y).toNat then s.pc + 2 else s.pc + 4) ∧ ChangesOnly [.pc] s t)

/-! ## Loads, arithmetic, logic, shifts, random -/

/-- R161, R162, R163: no flag, VF included in the frame unless it is the destination; the sum wraps mod 256. -/
def Obligations.LoadsAndAddImmediateWriteOnlyTheirRegister : Prop :=
  (∀ (x : Reg) (nn : Byte) (s : State), ∃ t, exec (.ldImm x nn) s = .next t ∧
    t.getV x = nn ∧ t.pc = s.pc + 2 ∧ ChangesOnly [.pc, .v x] s t) ∧
  (∀ (x : Reg) (nn : Byte) (s : State), ∃ t, exec (.addImm x nn) s = .next t ∧
    (t.getV x).toNat = ((s.getV x).toNat + nn.toNat) % 256 ∧ t.pc = s.pc + 2 ∧ ChangesOnly [.pc, .v x] s t) ∧
  (∀ (x y : Reg) (s : State), ∃ t, exec (.ldReg x y) s = .next t ∧
    t.getV x = s.getV y ∧ t.pc = s.pc + 2 ∧ ChangesOnly [.pc, .v x] s t)

/-- R164, R165, R166, bit by bit; VF is left as it was unless it is the destination. -/
def Obligations.LogicActsBitwiseWithoutFlag : Prop :=
  ∀ (x y : Reg) (s : State),
    (∃ t, exec (.orReg x y) s = .next t ∧
      (∀ b < 8, (t.getV x).getLsbD b = ((s.getV x).getLsbD b || (s.getV y).getLsbD b)) ∧
      t.pc = s.pc + 2 ∧ ChangesOnly [.pc, .v x] s t) ∧
    (∃ t, exec (.andReg x y) s = .next t ∧
      (∀ b < 8, (t.getV x).getLsbD b = ((s.getV x).getLsbD b && (s.getV y).getLsbD b)) ∧
      t.pc = s.pc + 2 ∧ ChangesOnly [.pc, .v x] s t) ∧
    (∃ t, exec (.xorReg x y) s = .next t ∧
      (∀ b < 8, (t.getV x).getLsbD b = ((s.getV x).getLsbD b ^^ (s.getV y).getLsbD b)) ∧
      t.pc = s.pc + 2 ∧ ChangesOnly [.pc, .v x] s t)

/-- R167, R168, R170, R172: the result mod 256 goes to V[X] and the flag to VF, computed from the old operands; carry
iff the sum exceeds 255, the other two flags strictly greater. For X = 15 the flag is what VF holds (D4, log 7). -/
def Obligations.AddAndSubtractWriteResultThenFlag : Prop :=
  ∀ (x y : Reg) (s : State),
    (∃ t, exec (.addReg x y) s = .next t ∧
      (x ≠ 15 → (t.getV x).toNat = ((s.getV x).toNat + (s.getV y).toNat) % 256) ∧
      (t.getV 15).toNat = (if 255 < (s.getV x).toNat + (s.getV y).toNat then 1 else 0) ∧
      t.pc = s.pc + 2 ∧ ChangesOnly [.pc, .v x, .v 15] s t) ∧
    (∃ t, exec (.sub x y) s = .next t ∧
      (x ≠ 15 → (t.getV x).toNat = (256 + (s.getV x).toNat - (s.getV y).toNat) % 256) ∧
      (t.getV 15).toNat = (if (s.getV y).toNat < (s.getV x).toNat then 1 else 0) ∧
      t.pc = s.pc + 2 ∧ ChangesOnly [.pc, .v x, .v 15] s t) ∧
    (∃ t, exec (.subn x y) s = .next t ∧
      (x ≠ 15 → (t.getV x).toNat = (256 + (s.getV y).toNat - (s.getV x).toNat) % 256) ∧
      (t.getV 15).toNat = (if (s.getV x).toNat < (s.getV y).toNat then 1 else 0) ∧
      t.pc = s.pc + 2 ∧ ChangesOnly [.pc, .v x, .v 15] s t)

/-- R169, R171: V[X] is shifted in place by one (D3, log 8), VF gets the bit shifted out, Y is neither read nor written;
for X = 15 the flag is what VF holds (D4, log 7). -/
def Obligations.ShiftsMoveOneBitIntoTheFlag : Prop :=
  ∀ (x y : Reg) (s : State),
    (∃ t, exec (.shr x y) s = .next t ∧
      (x ≠ 15 → (t.getV x).toNat = (s.getV x).toNat / 2) ∧
      (t.getV 15).toNat = (s.getV x).toNat % 2 ∧
      t.pc = s.pc + 2 ∧ ChangesOnly [.pc, .v x, .v 15] s t) ∧
    (∃ t, exec (.shl x y) s = .next t ∧
      (x ≠ 15 → (t.getV x).toNat = (s.getV x).toNat * 2 % 256) ∧
      (t.getV 15).toNat = (s.getV x).toNat / 128 ∧
      t.pc = s.pc + 2 ∧ ChangesOnly [.pc, .v x, .v 15] s t)

/-- R173, R174: V[X] gets the drawn byte AND NN, so no bit outside NN, whatever the byte is; no flag. The drawn byte is
the model's free value, of which nothing is known, and `draws` its own count (D11, log 2). -/
def Obligations.RandomStaysInsideItsMask : Prop :=
  (∀ (x : Reg) (nn : Byte) (s : State), ∃ t, exec (.rnd x nn) s = .next t ∧ t.getV x = s.draw &&& nn ∧
    (∀ b < 8, nn.getLsbD b = false → (t.getV x).getLsbD b = false) ∧
    t.pc = s.pc + 2 ∧ t.draws = s.draws + 1 ∧ ChangesOnly [.pc, .v x, .draws] s t) ∧
  (∀ (r : Byte) (x : Reg) (nn : Byte) (s : State), ∃ t, rndRule r x nn s = .ok t ∧ t.getV x = r &&& nn)

/-! ## Index register and memory -/

/-- R190 -/
def Obligations.LoadIndexSetsI : Prop :=
  ∀ (nnn : Addr12) (s : State), ∃ t, exec (.ldI nnn) s = .next t ∧
    t.i.toNat = nnn.toNat ∧ t.pc = s.pc + 2 ∧ ChangesOnly [.pc, .i] s t

/-- R191 (the wrap at 16 bits: D18, log 14) and R192 (FONT_BASE = 0x050: D8, log 11): neither writes a flag, masks to
12 bits, reads memory or raises anything. -/
def Obligations.AddIndexAndGlyphAddressSetI : Prop :=
  ∀ (x : Reg) (s : State),
    (∃ t, exec (.addI x) s = .next t ∧ t.i.toNat = (s.i.toNat + (s.getV x).toNat) % 65536 ∧
      t.pc = s.pc + 2 ∧ ChangesOnly [.pc, .i] s t) ∧
    (∃ t, exec (.ldF x) s = .next t ∧ t.i.toNat = 0x050 + 5 * (s.getV x).toNat ∧
      t.pc = s.pc + 2 ∧ ChangesOnly [.pc, .i] s t)

/-- R193 where the three bytes are inside memory: the decimal digits of V[X], hundreds at I; I and every other byte
unchanged. -/
def Obligations.BcdStoresDecimalDigits : Prop :=
  ∀ (x : Reg) (s : State), s.i.toNat + 2 ≤ 0xFFF →
    ∃ t, exec (.ldB x) s = .next t ∧
      (t.mem.read s.i.toNat).toNat ≤ 2 ∧ (t.mem.read (s.i.toNat + 1)).toNat ≤ 9 ∧
      (t.mem.read (s.i.toNat + 2)).toNat ≤ 9 ∧
      (s.getV x).toNat = 100 * (t.mem.read s.i.toNat).toNat + 10 * (t.mem.read (s.i.toNat + 1)).toNat +
        (t.mem.read (s.i.toNat + 2)).toNat ∧
      t.pc = s.pc + 2 ∧ ChangesOnly (.pc :: cellsAt s.i.toNat 3) s t

/-- R194 where the X + 1 bytes are inside memory: V[k] at I + k for k up to X; I and every other byte unchanged. -/
def Obligations.RegisterDumpStoresV0ToVx : Prop :=
  ∀ (x : Reg) (s : State), s.i.toNat + x.val ≤ 0xFFF →
    ∃ t, exec (.stRegs x) s = .next t ∧
      (∀ k : Reg, k.val ≤ x.val → t.mem.read (s.i.toNat + k.val) = s.getV k) ∧
      t.pc = s.pc + 2 ∧ ChangesOnly (.pc :: cellsAt s.i.toNat (x.val + 1)) s t

/-- R195 where the X + 1 bytes are inside memory: V[k] from I + k for k up to X; I, memory and every other register
unchanged. -/
def Obligations.RegisterLoadFillsV0ToVx : Prop :=
  ∀ (x : Reg) (s : State), s.i.toNat + x.val ≤ 0xFFF →
    ∃ t, exec (.ldRegs x) s = .next t ∧
      (∀ k : Reg, k.val ≤ x.val → t.getV k = s.mem.read (s.i.toNat + k.val)) ∧
      (∀ k : Reg, x.val < k.val → t.getV k = s.getV k) ∧
      t.pc = s.pc + 2 ∧ (∀ p : Part, (∀ k : Reg, p ≠ .v k) → p ≠ .pc → p.same s t)

/-- R70, R261 (D5, D6): an access that leaves memory latches AddressOutOfRange and changes nothing, not even the bytes
or registers of its part that is inside. -/
def Obligations.AccessesLeavingMemoryFault : Prop :=
  (∀ (x : Reg) (s : State), 0xFFF < s.i.toNat + 2 →
    exec (.ldB x) s = .next { s with fault := some .addressOutOfRange }) ∧
  (∀ (x : Reg) (s : State), 0xFFF < s.i.toNat + x.val →
    exec (.stRegs x) s = .next { s with fault := some .addressOutOfRange } ∧
    exec (.ldRegs x) s = .next { s with fault := some .addressOutOfRange }) ∧
  (∀ (x y : Reg) (n : Nibble) (s : State), 0 < n.toNat → 0xFFF < s.i.toNat + n.toNat - 1 →
    exec (.drw x y n) s = .next { s with fault := some .addressOutOfRange })

/-- R65, R194, R195: what a dump stored, a load with the same I and X brings back, whatever the registers held in
between; I is not moved by either. -/
def Obligations.LoadAfterDumpRestoresRegisters : Prop :=
  ∀ (x : Reg) (s : State), s.i.toNat + x.val ≤ 0xFFF →
    ∃ t, exec (.stRegs x) s = .next t ∧
      ∀ v : Vector Byte 16, ∃ u, exec (.ldRegs x) { t with v := v } = .next u ∧
        (∀ k : Reg, k.val ≤ x.val → u.getV k = s.getV k) ∧ u.i = s.i

/-- R76, R64: what LD [I], Vx and LD B, Vx store is what the next fetch reads, whichever of the two bytes after the
instruction they reach, both, one or none: the byte of the lower address is the high one, and a word so stored runs in
the next step. The stored bytes are those of R194 and R193; that an access must be inside memory is D5 (log 6). -/
def Obligations.StoreIsSeenByTheNextFetch : Prop :=
  ∀ (x : Reg) (s : State), s.fault = none → s.pc.toNat + 3 ≤ 0xFFF →
    (s.i.toNat + x.val ≤ 0xFFF → ∃ t, exec (.stRegs x) s = .next t ∧
      let after := byteAfterStore s s.i.toNat (List.ofFn fun k : Fin (x.val + 1) => s.getV ⟨k.val, by omega⟩)
      let w := wordOfBytes (after (s.pc.toNat + 2)) (after (s.pc.toNat + 3))
      fetchWord config t = .ok w ∧ ∀ j, decodeWord config w = .ok j → step t = exec j t) ∧
    (s.i.toNat + 2 ≤ 0xFFF → ∃ t, exec (.ldB x) s = .next t ∧
      let v := (s.getV x).toNat
      let after := byteAfterStore s s.i.toNat [BitVec.ofNat 8 (v / 100), BitVec.ofNat 8 (v / 10 % 10), BitVec.ofNat 8 (v % 10)]
      let w := wordOfBytes (after (s.pc.toNat + 2)) (after (s.pc.toNat + 3))
      fetchWord config t = .ok w ∧ ∀ j, decodeWord config w = .ok j → step t = exec j t)

/-! ## Display -/

/-- R211 -/
def Obligations.ClearUnsetsEveryPixel : Prop :=
  ∀ s : State, ∃ t, exec .cls s = .next t ∧
    (∀ x y, t.disp.pixel x y = false) ∧ t.dirty = true ∧ t.pc = s.pc + 2 ∧
    (∀ p : Part, p.isPixel = false → p ∉ [Part.pc, .dirty] → p.same s t)

/-- R212 where the N bytes are inside memory (always so for N = 0): exactly the pixels under a 1 bit of the sprite are
inverted, VF tells whether one of them was set, DIRTY is set, I and the rest unchanged. The bit order is D9 (log 10);
N = 0 and VF as a coordinate are D10 (log 12). -/
def Obligations.DrawInvertsExactlyTheSpritesPixels : Prop :=
  ∀ (x y : Reg) (n : Nibble) (s : State), n.toNat = 0 ∨ s.i.toNat + n.toNat - 1 ≤ 0xFFF →
    ∃ t, exec (.drw x y n) s = .next t ∧
      (∀ px py, SpriteCovers s (s.getV x) (s.getV y) n px py → t.disp.pixel px py = !s.disp.pixel px py) ∧
      (∀ px py, ¬ SpriteCovers s (s.getV x) (s.getV y) n px py → t.disp.pixel px py = s.disp.pixel px py) ∧
      ((∃ px py, SpriteCovers s (s.getV x) (s.getV y) n px py ∧ s.disp.pixel px py = true) → t.getV 15 = 1) ∧
      ((¬ ∃ px py, SpriteCovers s (s.getV x) (s.getV y) n px py ∧ s.disp.pixel px py = true) → t.getV 15 = 0) ∧
      t.dirty = true ∧ t.pc = s.pc + 2 ∧
      (∀ p : Part, p.isPixel = false → p ∉ [Part.pc, .v 15, .dirty] → p.same s t)

/-- R212 (4), derived there: the same sprite drawn twice at the same place restores the display; the second draw hits
iff the first one set a pixel. Coordinate registers other than VF, since the first draw overwrites VF. Which pixels the
sprite covers goes by the bit order of D9 (log 10); N = 0, inside the hypotheses, is D10 (log 12). -/
def Obligations.DrawingTwiceRestoresTheDisplay : Prop :=
  ∀ (x y : Reg) (n : Nibble) (s : State), x ≠ 15 → y ≠ 15 → s.i.toNat + n.toNat ≤ 0x1000 →
    ∃ t u, exec (.drw x y n) s = .next t ∧ exec (.drw x y n) t = .next u ∧
      (∀ px py, u.disp.pixel px py = s.disp.pixel px py) ∧
      (u.getV 15 = 1 ↔ ∃ px py, SpriteCovers s (s.getV x) (s.getV y) n px py ∧ s.disp.pixel px py = false)

/-! ## Keypad and timers -/

/-- R225, R226 for a register that names a key: skip on the level of that key. -/
def Obligations.KeySkipsTestTheNamedKey : Prop :=
  ∀ (x : Reg) (k : Key) (s : State), (s.getV x).toNat = k.val →
    (∃ t, exec (.skp x) s = .next t ∧ t.pc = (if s.keyDown k = true then s.pc + 4 else s.pc + 2) ∧
      ChangesOnly [.pc] s t) ∧
    (∃ t, exec (.sknp x) s = .next t ∧ t.pc = (if s.keyDown k = true then s.pc + 2 else s.pc + 4) ∧
      ChangesOnly [.pc] s t)

/-- R266 (D7, log 9): a key index above 15 latches KeyIndexOutOfRange and changes nothing else. -/
def Obligations.KeyIndexAbove15Faults : Prop :=
  ∀ (x : Reg) (s : State), 15 < (s.getV x).toNat →
    exec (.skp x) s = .next { s with fault := some .keyIndexOutOfRange } ∧
    exec (.sknp x) s = .next { s with fault := some .keyIndexOutOfRange }

/-- R227: the least pressed key goes to V[X] and PC moves on; with no key pressed the whole state is as it was. -/
def Obligations.WaitForKeyTakesTheLeastPressedKey : Prop :=
  ∀ (x : Reg) (s : State),
    (∀ k : Key, s.keyDown k = true → (∀ j : Key, j.val < k.val → s.keyDown j = false) →
      ∃ t, exec (.ldVxK x) s = .next t ∧ (t.getV x).toNat = k.val ∧ t.pc = s.pc + 2 ∧
        ChangesOnly [.pc, .v x] s t) ∧
    ((∀ k : Key, s.keyDown k = false) → exec (.ldVxK x) s = .next s)

/-- R240, R241, R242 -/
def Obligations.TimerInstructionsCopyTimers : Prop :=
  ∀ (x : Reg) (s : State),
    (∃ t, exec (.ldVxDt x) s = .next t ∧ t.getV x = s.dt ∧ t.pc = s.pc + 2 ∧ ChangesOnly [.pc, .v x] s t) ∧
    (∃ t, exec (.ldDtVx x) s = .next t ∧ t.dt = s.getV x ∧ t.pc = s.pc + 2 ∧ ChangesOnly [.pc, .dt] s t) ∧
    (∃ t, exec (.ldStVx x) s = .next t ∧ t.st = s.getV x ∧ t.pc = s.pc + 2 ∧ ChangesOnly [.pc, .st] s t)

/-- R243: both timers count down independently, floored at 0; the sound event is ST = 1 before the tick; nothing else
changes; a halted machine ignores the tick (D20, log 1). -/
def Obligations.TickCountsBothTimersDown : Prop :=
  ∀ s : State,
    (s.fault = none →
      (tick s).1.dt.toNat = s.dt.toNat - 1 ∧ (tick s).1.st.toNat = s.st.toNat - 1 ∧
      ((tick s).2 = true ↔ s.st.toNat = 1) ∧ ChangesOnly [.dt, .st] s (tick s).1) ∧
    (s.fault ≠ none → tick s = (s, false))

/-- R244, derived there from R243: with ST = n and no write to ST in between, of the following ticks exactly the n-th
signals. -/
def Obligations.ExactlyTheNthTickSounds : Prop :=
  ∀ (s : State) (k : Nat), s.fault = none →
    ((tick (ticks k s)).2 = true ↔ k + 1 = s.st.toNat)

/-! ## Whole-machine rules -/

/-- R22, R21: an instruction changes no general register but its destination and, for the six flag-writing ones, VF;
after each of those six VF holds 0 or 1 (for X = 15: D4, log 7) unless the draw raised a condition. -/
def Obligations.OnlySixInstructionsWriteTheFlag : Prop :=
  ∀ (i : Instr) (s t : State), exec i s = .next t →
    (∀ r, writesV i r = false → t.getV r = s.getV r) ∧
    ((∃ x y, i = .addReg x y ∨ i = .sub x y ∨ i = .subn x y ∨ i = .shr x y ∨ i = .shl x y ∨
        ∃ n, i = .drw x y n ∧ raisedBy i s = none) →
      t.getV 15 = 0 ∨ t.getV 15 = 1)

/-- R20, R23, R25, R27, R29, R30, R38, R210, R245: which instructions can change what, over all 34. -/
def Obligations.EachPartHasOnlyItsWriters : Prop :=
  ∀ (i : Instr) (s t : State), exec i s = .next t →
    ((∀ x, i ≠ .ldB x) → (∀ x, i ≠ .stRegs x) → ∀ a, t.mem.read a = s.mem.read a) ∧
    ((∀ n, i ≠ .ldI n) → (∀ x, i ≠ .addI x) → (∀ x, i ≠ .ldF x) → t.i = s.i) ∧
    ((∀ n, i ≠ .call n) → (∀ k : Fin 16, t.stack[k] = s.stack[k]) ∧ (i ≠ .ret → t.sp = s.sp)) ∧
    (i ≠ .cls → (∀ x y n, i ≠ .drw x y n) → (∀ x y, t.disp.pixel x y = s.disp.pixel x y) ∧ t.dirty = s.dirty) ∧
    (s.dirty = true → t.dirty = true) ∧
    (∀ k, t.keyDown k = s.keyDown k) ∧
    ((∀ x, i ≠ .ldDtVx x) → t.dt = s.dt) ∧
    ((∀ x, i ≠ .ldStVx x) → t.st = s.st)

/-- R40 at reset. -/
def Obligations.ResetMeetsTheInvariant : Prop := State.reset.Inv

/-- R40, derived there: every step, from every state that meets it, keeps the invariant: the memory's canonical form,
PC at most 0x10FE, every live stack slot in 2 to 0x1000. -/
def Obligations.EveryStepKeepsTheInvariant : Prop :=
  ∀ s t : State, s.Inv → step s = .next t → t.Inv

/-- R40, R285: so does every operation of the host, and every one of them answers. -/
def Obligations.EveryHostOperationKeepsTheInvariant : Prop :=
  ∀ (op : HostOp) (s : State), s.Inv → ∃ t r, perform op s = .next (t, r) ∧ t.Inv

/-- R25 (stale slots), R29 (no instruction reads DIRTY), R32 (no instruction reads ST), derived: two machines that
differ only there step to two machines that differ only there, so no program can learn any of it. That both draw the same byte
is the model's choice: equal `draws` draw equal bytes (D11, log 2). -/
def Obligations.ProgramsCannotSeeStaleSlotsSoundOrDirty : Prop :=
  ∀ s t s' : State, AgreeForPrograms s t → step s = .next s' →
    ∃ t', step t = .next t' ∧ AgreeForPrograms s' t'

/-- R316 and the reason of D5: a step that latches no fault is the same step on a machine that masks addresses
(ADDR_POLICY = mask, the model's reading of U3 in log 6) instead of faulting. -/
def Obligations.MaskingMachineAgreesUnlessAFaultIsRaised : Prop :=
  ∀ s t : State, step s = .next t → t.fault = none →
    stepWith { config with addrPolicy := .mask } s.draw s = .next t

/-! ## Encoding -/

/-- R98 (the values: D1, log 4), R64: words written out from the spec's encodings, one or more of each family. -/
def Obligations.WrittenOutWordsDecode : Prop :=
  decodeTableWord 16 0x00E0 = some .cls ∧ decodeTableWord 16 0x00EE = some .ret ∧
  decodeTableWord 16 0x1234 = some (.jp 0x234) ∧ decodeTableWord 16 0x3A05 = some (.seImm 0xA 0x05) ∧
  decodeTableWord 16 0x8AB4 = some (.addReg 0xA 0xB) ∧ decodeTableWord 16 0x810E = some (.shl 1 0) ∧
  decodeTableWord 16 0xA300 = some (.ldI 0x300) ∧ decodeTableWord 16 0xF255 = some (.stRegs 2) ∧
  decodeTableWord 16 0xD123 = some (.drw 1 2 3) ∧ decodeTableWord 16 0xE19E = some (.skp 1) ∧
  decodeTableWord 16 0xF30A = some (.ldVxK 3) ∧ decodeTableWord 16 0xF218 = some (.ldStVx 2) ∧
  decodeTableWord 16 0xFFFF = none ∧ decodeTableWord 16 0x0000 = none

/-- R92 to R98, R100: decoding the bytes of any instruction gives that instruction back, all operands, and no byte is
left over. It covers shr and shl with Y other than 0, which are not canonical: that their words run is D2, and that the
term keeps Y is the model's choice (log 5). The values: D1, log 4. -/
def Obligations.DecodingAnEncodedInstructionGivesItBack : Prop :=
  ∀ i : Instr, decodeBytes config (encodeBytes i) = .ok (i, [])

/-- R98, R124: for every word, the decoder's dispatch selects the row of the opcode table whose mask and match the word
meets, and refuses the word iff there is none; no word meets two rows. The values: D1, log 4; the bits the masks leave
out: D2, log 5. -/
def Obligations.DecoderAgreesWithTheOpcodeTable : Prop :=
  ∀ w : Word,
    (∀ i, decodeWord config w = .ok i → ∃ r ∈ opcodeTable, r.selects w = true ∧ r.mnemonic = i.mnemonic) ∧
    ((∃ e, decodeWord config w = .error e) → ∀ r ∈ opcodeTable, r.selects w = false) ∧
    (∀ r ∈ opcodeTable, ∀ q ∈ opcodeTable, r.selects w = true → q.selects w = true → r = q)

/-- R97 (D2, log 5): a word that decodes to an instruction is the instruction's own encoding but for the bits R97 calls
don't-care. -/
def Obligations.DecodingIgnoresOnlyDontCareBits : Prop :=
  ∀ (w : Word) (i : Instr), decodeWord config w = .ok i ↔ w &&& ~~~ dontCareBits i = encode i

/-- R97, U9: under NONCANONICAL = unsupported the words that decode are exactly the canonical encodings. -/
def Obligations.StrictDecoderAcceptsExactlyCanonicalWords : Prop :=
  ∀ (w : Word) (i : Instr), decodeWord { config with nonCanonical := .unsupported } w = .ok i ↔
    i.wellFormed = true ∧ w = encode i

/-- R99: the unsupported words, group by group, and the reject names the word. -/
def Obligations.UnsupportedWordsAreExactlyTheListed : Prop :=
  ∀ w : Word, unsupportedWord w ↔ decodeWord config w = .error (.unsupported w)

/-! ## The host interface -/

/-- R303: an image that fits is copied to 0x200 upward; every other byte and everything else is unchanged. -/
def Obligations.LoadProgramCopiesTheImage : Prop :=
  ∀ (bytes : List Byte) (s : State), bytes.length ≤ 3584 →
    ∃ t, perform (.loadProgram bytes) s = .next (t, .loaded .success) ∧
      (∀ k (h : k < bytes.length), t.mem.read (0x200 + k) = bytes[k]) ∧
      ChangesOnly (cellsAt 0x200 bytes.length) s t

/-- R304 (whole or not at all: D15, log 15): a longer image is rejected and nothing changes, FAULT included. -/
def Obligations.OversizedImageIsRejectedWhole : Prop :=
  ∀ (bytes : List Byte) (s : State), 3584 < bytes.length →
    perform (.loadProgram bytes) s = .next (s, .loaded .imageTooLarge)

/-- R305 (D14, log 15; FONT_BASE = 0x050: D8, log 11): font bytes go to FONT_BASE upward if they stay below 0x200. -/
def Obligations.LoadFontCopiesBelowTheProgram : Prop :=
  ∀ (bytes : List Byte) (s : State),
    (bytes.length ≤ 432 → ∃ t, perform (.loadFont bytes) s = .next (t, .loaded .success) ∧
      (∀ k (h : k < bytes.length), t.mem.read (0x050 + k) = bytes[k]) ∧
      ChangesOnly (cellsAt 0x050 bytes.length) s t) ∧
    (432 < bytes.length → perform (.loadFont bytes) s = .next (s, .loaded .imageTooLarge))

/-- R278, R279, R272 (names and the clear as its own operation: D12, D25): setKey writes one key, clearDirty clears
DIRTY, the three reads change nothing and give the display at index y * 64 + x, DIRTY and FAULT; all of them whether or
not the machine is halted. -/
def Obligations.HostPortsTouchOnlyTheirOwnPart : Prop :=
  ∀ s : State,
    (∀ k b, ∃ t, perform (.setKey k b) s = .next (t, .done) ∧ t.keyDown k = b ∧ ChangesOnly [.key k] s t) ∧
    (∃ t, perform .clearDirty s = .next (t, .done) ∧ t.dirty = false ∧ ChangesOnly [.dirty] s t) ∧
    (∃ p : Vector Bool 2048, perform .readDisplay s = .next (s, .pixels p) ∧
      ∀ (x : Fin 64) (y : Fin 32), p[y.val * 64 + x.val]'(by omega) = s.disp.pixel x y) ∧
    perform .readDirty s = .next (s, .dirty s.dirty) ∧ perform .readFault s = .next (s, .fault s.fault)

/-- R306, R285 (D26, U19, log 15): in every session a load after the first step is refused, and a second program load
before it; the other loads answer, and a program load that succeeds is the one load. Every operation but construct keeps
both marks of the boot order, except that a step sets the one and a program load may set the other; construct clears
both. That a rejected load does not count is the model's choice (log 15). -/
def Obligations.LoadsHaveAMoveOnlyBeforeTheFirstStep : Prop :=
  (∀ (c : Session) (bytes : List Byte), c.started = true →
    c.perform (.loadProgram bytes) = .refused .loadAfterFirstStep ∧
    c.perform (.loadFont bytes) = .refused .loadAfterFirstStep) ∧
  (∀ (c : Session) (bytes : List Byte), c.started = false → c.programLoaded = true →
    c.perform (.loadProgram bytes) = .refused .programAlreadyLoaded) ∧
  (∀ (c : Session) (bytes : List Byte), c.started = false → c.programLoaded = false →
    ∃ c' r, c.perform (.loadProgram bytes) = .next (c', r) ∧ (c'.programLoaded = true ↔ bytes.length ≤ 3584)) ∧
  (∀ (c : Session) (bytes : List Byte), c.started = false → ∃ c' r, c.perform (.loadFont bytes) = .next (c', r)) ∧
  (∀ (op : HostOp) (c c' : Session) (r : Response), c.perform op = .next (c', r) →
    (op ≠ .construct → op ≠ .step → c'.started = c.started) ∧
    (op ≠ .construct → (∀ b, op ≠ .loadProgram b) → c'.programLoaded = c.programLoaded) ∧
    (op ≠ .construct → c.programLoaded = true → c'.programLoaded = true) ∧
    (op = .step → c'.started = true) ∧
    (op = .construct → c'.started = false ∧ c'.programLoaded = false))

/-- R285, R306 (U4, log 15): in every session a step has a move iff the session is marked as loaded; every
operation that is neither a step nor a load always has one; and an operation that has a move does to the machine, and
answers, what the operation itself does. -/
def Obligations.StepsHaveAMoveOnlyAfterLoading : Prop :=
  (∀ c : Session, c.programLoaded = false → c.perform .step = .refused .stepBeforeLoad) ∧
  (∀ c : Session, c.programLoaded = true → ∃ c' r, c.perform .step = .next (c', r) ∧ c'.started = true) ∧
  (∀ (op : HostOp) (c : Session), op ≠ .step → (∀ b, op ≠ .loadProgram b) → (∀ b, op ≠ .loadFont b) →
    ∃ c' r, c.perform op = .next (c', r)) ∧
  (∀ (op : HostOp) (c c' : Session) (r : Response), c.perform op = .next (c', r) →
    perform op c.machine = .next (c'.machine, r))
end

