-- ==== Sys2Proof/Laws/Decode.lean ====
section
/-! SUPPORT. Words as numbers: the value of an encoded word (R93), the fields of a word (R92), and that each field of an
encoded word comes back as it went in, in each format. -/

namespace Sys2Proof

/-! ## Words and fields as numbers -/

theorem encA_toNat (op : Nibble) (nnn : Addr12) : (encA op nnn).toNat = op.toNat * 4096 + nnn.toNat := by
  show (op ++ nnn : BitVec (4 + 12)).toNat = _
  rw [BitVec.toNat_append, ← Nat.shiftLeft_add_eq_or_of_lt nnn.isLt, Nat.shiftLeft_eq]

theorem encRI_toNat (op : Nibble) (x : Reg) (nn : Byte) :
    (encRI op x nn).toNat = op.toNat * 4096 + x.val * 256 + nn.toNat := by
  show ((op ++ BitVec.ofFin (w := 4) x : BitVec (4 + 4)) ++ nn : BitVec (4 + 4 + 8)).toNat = _
  rw [BitVec.toNat_append, BitVec.toNat_append, ← Nat.shiftLeft_add_eq_or_of_lt nn.isLt,
    ← Nat.shiftLeft_add_eq_or_of_lt (BitVec.ofFin (w := 4) x).isLt, Nat.shiftLeft_eq, Nat.shiftLeft_eq]
  show (op.toNat * 2 ^ 4 + x.val) * 2 ^ 8 + nn.toNat = _
  omega

theorem encRR_toNat (op : Nibble) (x y : Reg) (n : Nibble) :
    (encRR op x y n).toNat = op.toNat * 4096 + x.val * 256 + y.val * 16 + n.toNat := by
  show (((op ++ BitVec.ofFin (w := 4) x : BitVec (4 + 4)) ++ BitVec.ofFin (w := 4) y : BitVec (4 + 4 + 4)) ++ n :
    BitVec (4 + 4 + 4 + 4)).toNat = _
  rw [BitVec.toNat_append, BitVec.toNat_append, BitVec.toNat_append, ← Nat.shiftLeft_add_eq_or_of_lt n.isLt,
    ← Nat.shiftLeft_add_eq_or_of_lt (BitVec.ofFin (w := 4) y).isLt,
    ← Nat.shiftLeft_add_eq_or_of_lt (BitVec.ofFin (w := 4) x).isLt, Nat.shiftLeft_eq, Nat.shiftLeft_eq, Nat.shiftLeft_eq]
  show ((op.toNat * 2 ^ 4 + x.val) * 2 ^ 4 + y.val) * 2 ^ 4 + n.toNat = _
  omega

theorem fieldsOf_op_toNat (w : Word) : (fieldsOf w).op.toNat = w.toNat / 4096 := by
  have := w.isLt
  simp only [fieldsOf, BitVec.extractLsb'_toNat, Nat.shiftRight_eq_div_pow]
  omega

theorem fieldsOf_x_val (w : Word) : (fieldsOf w).x.val = w.toNat / 256 % 16 := by
  show (w.extractLsb' 8 4).toNat = _
  simp only [BitVec.extractLsb'_toNat, Nat.shiftRight_eq_div_pow]

theorem fieldsOf_y_val (w : Word) : (fieldsOf w).y.val = w.toNat / 16 % 16 := by
  show (w.extractLsb' 4 4).toNat = _
  simp only [BitVec.extractLsb'_toNat, Nat.shiftRight_eq_div_pow]

theorem fieldsOf_n_toNat (w : Word) : (fieldsOf w).n.toNat = w.toNat % 16 := by
  simp [fieldsOf]

theorem fieldsOf_nn_toNat (w : Word) : (fieldsOf w).nn.toNat = w.toNat % 256 := by
  simp [fieldsOf]

theorem fieldsOf_nnn_toNat (w : Word) : (fieldsOf w).nnn.toNat = w.toNat % 4096 := by
  simp [fieldsOf]

/-! ## The masks of the opcode table as numbers (R98) -/

/-- A mask of the table keeps the high 4 bits; what it keeps below them is `m`. -/
theorem and_mask_toNat (w : Word) (m : Nat) (hm : m < 4096) :
    (w &&& BitVec.ofNat 16 (0xF000 + m)).toNat = w.toNat / 4096 * 4096 + (w.toNat % 4096 &&& m) := by
  have hw := w.isLt
  have hM : (BitVec.ofNat 16 (0xF000 + m)).toNat = 15 * 4096 + m := by
    rw [BitVec.toNat_ofNat]; omega
  have hdiv : (w.toNat &&& (15 * 4096 + m)) / 2 ^ 12 = w.toNat / 4096 := by
    rw [Nat.and_div_two_pow, show (15 * 4096 + m) / 2 ^ 12 = 2 ^ 4 - 1 by omega, Nat.and_two_pow_sub_one_eq_mod]
    omega
  have hmod : (w.toNat &&& (15 * 4096 + m)) % 2 ^ 12 = w.toNat % 4096 &&& m := by
    rw [Nat.and_mod_two_pow, show (15 * 4096 + m) % 2 ^ 12 = m by omega]
  rw [BitVec.toNat_and, hM]
  omega

theorem and_F000_toNat (w : Word) : (w &&& 0xF000#16).toNat = w.toNat / 4096 * 4096 := by
  simpa using and_mask_toNat w 0 (by omega)

theorem and_F00F_toNat (w : Word) : (w &&& 0xF00F#16).toNat = w.toNat / 4096 * 4096 + w.toNat % 16 := by
  have h := and_mask_toNat w (2 ^ 4 - 1) (by omega)
  rw [Nat.and_two_pow_sub_one_eq_mod] at h
  rw [show (0xF00F#16) = BitVec.ofNat 16 (0xF000 + (2 ^ 4 - 1)) from rfl, h]
  omega

theorem and_F0FF_toNat (w : Word) : (w &&& 0xF0FF#16).toNat = w.toNat / 4096 * 4096 + w.toNat % 256 := by
  have h := and_mask_toNat w (2 ^ 8 - 1) (by omega)
  rw [Nat.and_two_pow_sub_one_eq_mod] at h
  rw [show (0xF0FF#16) = BitVec.ofNat 16 (0xF000 + (2 ^ 8 - 1)) from rfl, h]
  omega

/-! ## A word laid out as bytes (R64) -/

/-- Splitting a word into its two bytes and combining them again gives the word. -/
@[simp] theorem wordOfBytes_high_low (w : Word) : wordOfBytes (highByte w) (lowByte w) = w := by
  apply BitVec.eq_of_toNat_eq
  show (highByte w ++ lowByte w : BitVec (8 + 8)).toNat = _
  rw [BitVec.toNat_append, ← Nat.shiftLeft_add_eq_or_of_lt (lowByte w).isLt, Nat.shiftLeft_eq]
  have := w.isLt
  simp only [highByte, lowByte, BitVec.extractLsb'_toNat, Nat.shiftRight_eq_div_pow]
  omega

/-! ## The fields of an encoded word -/

section FormatA
variable (op : Nibble) (nnn : Addr12)

@[simp] theorem fieldsOf_encA_op : (fieldsOf (encA op nnn)).op = op := by
  apply BitVec.eq_of_toNat_eq
  rw [fieldsOf_op_toNat, encA_toNat]
  omega

@[simp] theorem fieldsOf_encA_nnn : (fieldsOf (encA op nnn)).nnn = nnn := by
  apply BitVec.eq_of_toNat_eq
  rw [fieldsOf_nnn_toNat, encA_toNat]
  omega

end FormatA

section FormatRI
variable (op : Nibble) (x : Reg) (nn : Byte)

@[simp] theorem fieldsOf_encRI_op : (fieldsOf (encRI op x nn)).op = op := by
  apply BitVec.eq_of_toNat_eq
  rw [fieldsOf_op_toNat, encRI_toNat]
  omega

@[simp] theorem fieldsOf_encRI_x : (fieldsOf (encRI op x nn)).x = x := by
  apply Fin.ext
  rw [fieldsOf_x_val, encRI_toNat]
  omega

@[simp] theorem fieldsOf_encRI_nn : (fieldsOf (encRI op x nn)).nn = nn := by
  apply BitVec.eq_of_toNat_eq
  rw [fieldsOf_nn_toNat, encRI_toNat]
  omega

end FormatRI

section FormatRR
variable (op : Nibble) (x y : Reg) (n : Nibble)

@[simp] theorem fieldsOf_encRR_op : (fieldsOf (encRR op x y n)).op = op := by
  apply BitVec.eq_of_toNat_eq
  rw [fieldsOf_op_toNat, encRR_toNat]
  omega

@[simp] theorem fieldsOf_encRR_x : (fieldsOf (encRR op x y n)).x = x := by
  apply Fin.ext
  rw [fieldsOf_x_val, encRR_toNat]
  omega

@[simp] theorem fieldsOf_encRR_y : (fieldsOf (encRR op x y n)).y = y := by
  apply Fin.ext
  rw [fieldsOf_y_val, encRR_toNat]
  omega

@[simp] theorem fieldsOf_encRR_n : (fieldsOf (encRR op x y n)).n = n := by
  apply BitVec.eq_of_toNat_eq
  rw [fieldsOf_n_toNat, encRR_toNat]
  omega

end FormatRR

end Sys2Proof
end

