-- ==== Sys2Proof/Laws/State.lean ====
section
/-! SUPPORT. One lemma for each field of each update of a state, all by rfl, so that no later proof unfolds a record
update; then what reading a register gives after an update. -/

namespace Sys2Proof.Machine

variable (s : State)

section setV
variable (r : Reg) (b : Byte)
@[simp] theorem State.setV_v : (s.setV r b).v = s.v.set r b := rfl
@[simp] theorem State.setV_i : (s.setV r b).i = s.i := rfl
@[simp] theorem State.setV_pc : (s.setV r b).pc = s.pc := rfl
@[simp] theorem State.setV_stack : (s.setV r b).stack = s.stack := rfl
@[simp] theorem State.setV_sp : (s.setV r b).sp = s.sp := rfl
@[simp] theorem State.setV_mem : (s.setV r b).mem = s.mem := rfl
@[simp] theorem State.setV_disp : (s.setV r b).disp = s.disp := rfl
@[simp] theorem State.setV_dirty : (s.setV r b).dirty = s.dirty := rfl
@[simp] theorem State.setV_keys : (s.setV r b).keys = s.keys := rfl
@[simp] theorem State.setV_dt : (s.setV r b).dt = s.dt := rfl
@[simp] theorem State.setV_st : (s.setV r b).st = s.st := rfl
@[simp] theorem State.setV_fault : (s.setV r b).fault = s.fault := rfl
@[simp] theorem State.setV_draws : (s.setV r b).draws = s.draws := rfl
end setV

section setI
variable (w : Word)
@[simp] theorem State.setI_v : (s.setI w).v = s.v := rfl
@[simp] theorem State.setI_i : (s.setI w).i = w := rfl
@[simp] theorem State.setI_pc : (s.setI w).pc = s.pc := rfl
@[simp] theorem State.setI_stack : (s.setI w).stack = s.stack := rfl
@[simp] theorem State.setI_sp : (s.setI w).sp = s.sp := rfl
@[simp] theorem State.setI_mem : (s.setI w).mem = s.mem := rfl
@[simp] theorem State.setI_disp : (s.setI w).disp = s.disp := rfl
@[simp] theorem State.setI_dirty : (s.setI w).dirty = s.dirty := rfl
@[simp] theorem State.setI_keys : (s.setI w).keys = s.keys := rfl
@[simp] theorem State.setI_dt : (s.setI w).dt = s.dt := rfl
@[simp] theorem State.setI_st : (s.setI w).st = s.st := rfl
@[simp] theorem State.setI_fault : (s.setI w).fault = s.fault := rfl
@[simp] theorem State.setI_draws : (s.setI w).draws = s.draws := rfl
@[simp] theorem State.setI_getV (r' : Reg) : (s.setI w).getV r' = s.getV r' := rfl
end setI

section setPc
variable (w : Word)
@[simp] theorem State.setPc_v : (s.setPc w).v = s.v := rfl
@[simp] theorem State.setPc_i : (s.setPc w).i = s.i := rfl
@[simp] theorem State.setPc_pc : (s.setPc w).pc = w := rfl
@[simp] theorem State.setPc_stack : (s.setPc w).stack = s.stack := rfl
@[simp] theorem State.setPc_sp : (s.setPc w).sp = s.sp := rfl
@[simp] theorem State.setPc_mem : (s.setPc w).mem = s.mem := rfl
@[simp] theorem State.setPc_disp : (s.setPc w).disp = s.disp := rfl
@[simp] theorem State.setPc_dirty : (s.setPc w).dirty = s.dirty := rfl
@[simp] theorem State.setPc_keys : (s.setPc w).keys = s.keys := rfl
@[simp] theorem State.setPc_dt : (s.setPc w).dt = s.dt := rfl
@[simp] theorem State.setPc_st : (s.setPc w).st = s.st := rfl
@[simp] theorem State.setPc_fault : (s.setPc w).fault = s.fault := rfl
@[simp] theorem State.setPc_draws : (s.setPc w).draws = s.draws := rfl
@[simp] theorem State.setPc_getV (r' : Reg) : (s.setPc w).getV r' = s.getV r' := rfl
end setPc

section setStack
variable (k : Fin 16) (w : Word)
@[simp] theorem State.setStack_v : (s.setStack k w).v = s.v := rfl
@[simp] theorem State.setStack_i : (s.setStack k w).i = s.i := rfl
@[simp] theorem State.setStack_pc : (s.setStack k w).pc = s.pc := rfl
@[simp] theorem State.setStack_stack : (s.setStack k w).stack = s.stack.set k w := rfl
@[simp] theorem State.setStack_sp : (s.setStack k w).sp = s.sp := rfl
@[simp] theorem State.setStack_mem : (s.setStack k w).mem = s.mem := rfl
@[simp] theorem State.setStack_disp : (s.setStack k w).disp = s.disp := rfl
@[simp] theorem State.setStack_dirty : (s.setStack k w).dirty = s.dirty := rfl
@[simp] theorem State.setStack_keys : (s.setStack k w).keys = s.keys := rfl
@[simp] theorem State.setStack_dt : (s.setStack k w).dt = s.dt := rfl
@[simp] theorem State.setStack_st : (s.setStack k w).st = s.st := rfl
@[simp] theorem State.setStack_fault : (s.setStack k w).fault = s.fault := rfl
@[simp] theorem State.setStack_draws : (s.setStack k w).draws = s.draws := rfl
@[simp] theorem State.setStack_getV (r' : Reg) : (s.setStack k w).getV r' = s.getV r' := rfl
end setStack

section setSp
variable (n : Fin 17)
@[simp] theorem State.setSp_v : (s.setSp n).v = s.v := rfl
@[simp] theorem State.setSp_i : (s.setSp n).i = s.i := rfl
@[simp] theorem State.setSp_pc : (s.setSp n).pc = s.pc := rfl
@[simp] theorem State.setSp_stack : (s.setSp n).stack = s.stack := rfl
@[simp] theorem State.setSp_sp : (s.setSp n).sp = n := rfl
@[simp] theorem State.setSp_mem : (s.setSp n).mem = s.mem := rfl
@[simp] theorem State.setSp_disp : (s.setSp n).disp = s.disp := rfl
@[simp] theorem State.setSp_dirty : (s.setSp n).dirty = s.dirty := rfl
@[simp] theorem State.setSp_keys : (s.setSp n).keys = s.keys := rfl
@[simp] theorem State.setSp_dt : (s.setSp n).dt = s.dt := rfl
@[simp] theorem State.setSp_st : (s.setSp n).st = s.st := rfl
@[simp] theorem State.setSp_fault : (s.setSp n).fault = s.fault := rfl
@[simp] theorem State.setSp_draws : (s.setSp n).draws = s.draws := rfl
@[simp] theorem State.setSp_getV (r' : Reg) : (s.setSp n).getV r' = s.getV r' := rfl
end setSp

section setMem
variable (m : Memory)
@[simp] theorem State.setMem_v : (s.setMem m).v = s.v := rfl
@[simp] theorem State.setMem_i : (s.setMem m).i = s.i := rfl
@[simp] theorem State.setMem_pc : (s.setMem m).pc = s.pc := rfl
@[simp] theorem State.setMem_stack : (s.setMem m).stack = s.stack := rfl
@[simp] theorem State.setMem_sp : (s.setMem m).sp = s.sp := rfl
@[simp] theorem State.setMem_mem : (s.setMem m).mem = m := rfl
@[simp] theorem State.setMem_disp : (s.setMem m).disp = s.disp := rfl
@[simp] theorem State.setMem_dirty : (s.setMem m).dirty = s.dirty := rfl
@[simp] theorem State.setMem_keys : (s.setMem m).keys = s.keys := rfl
@[simp] theorem State.setMem_dt : (s.setMem m).dt = s.dt := rfl
@[simp] theorem State.setMem_st : (s.setMem m).st = s.st := rfl
@[simp] theorem State.setMem_fault : (s.setMem m).fault = s.fault := rfl
@[simp] theorem State.setMem_draws : (s.setMem m).draws = s.draws := rfl
@[simp] theorem State.setMem_getV (r' : Reg) : (s.setMem m).getV r' = s.getV r' := rfl
end setMem

section setDisp
variable (d : Display)
@[simp] theorem State.setDisp_v : (s.setDisp d).v = s.v := rfl
@[simp] theorem State.setDisp_i : (s.setDisp d).i = s.i := rfl
@[simp] theorem State.setDisp_pc : (s.setDisp d).pc = s.pc := rfl
@[simp] theorem State.setDisp_stack : (s.setDisp d).stack = s.stack := rfl
@[simp] theorem State.setDisp_sp : (s.setDisp d).sp = s.sp := rfl
@[simp] theorem State.setDisp_mem : (s.setDisp d).mem = s.mem := rfl
@[simp] theorem State.setDisp_disp : (s.setDisp d).disp = d := rfl
@[simp] theorem State.setDisp_dirty : (s.setDisp d).dirty = s.dirty := rfl
@[simp] theorem State.setDisp_keys : (s.setDisp d).keys = s.keys := rfl
@[simp] theorem State.setDisp_dt : (s.setDisp d).dt = s.dt := rfl
@[simp] theorem State.setDisp_st : (s.setDisp d).st = s.st := rfl
@[simp] theorem State.setDisp_fault : (s.setDisp d).fault = s.fault := rfl
@[simp] theorem State.setDisp_draws : (s.setDisp d).draws = s.draws := rfl
@[simp] theorem State.setDisp_getV (r' : Reg) : (s.setDisp d).getV r' = s.getV r' := rfl
end setDisp

section setDirty
variable (b : Bool)
@[simp] theorem State.setDirty_v : (s.setDirty b).v = s.v := rfl
@[simp] theorem State.setDirty_i : (s.setDirty b).i = s.i := rfl
@[simp] theorem State.setDirty_pc : (s.setDirty b).pc = s.pc := rfl
@[simp] theorem State.setDirty_stack : (s.setDirty b).stack = s.stack := rfl
@[simp] theorem State.setDirty_sp : (s.setDirty b).sp = s.sp := rfl
@[simp] theorem State.setDirty_mem : (s.setDirty b).mem = s.mem := rfl
@[simp] theorem State.setDirty_disp : (s.setDirty b).disp = s.disp := rfl
@[simp] theorem State.setDirty_dirty : (s.setDirty b).dirty = b := rfl
@[simp] theorem State.setDirty_keys : (s.setDirty b).keys = s.keys := rfl
@[simp] theorem State.setDirty_dt : (s.setDirty b).dt = s.dt := rfl
@[simp] theorem State.setDirty_st : (s.setDirty b).st = s.st := rfl
@[simp] theorem State.setDirty_fault : (s.setDirty b).fault = s.fault := rfl
@[simp] theorem State.setDirty_draws : (s.setDirty b).draws = s.draws := rfl
@[simp] theorem State.setDirty_getV (r' : Reg) : (s.setDirty b).getV r' = s.getV r' := rfl
end setDirty

section setKeyLevel
variable (k : Key) (b : Bool)
@[simp] theorem State.setKeyLevel_v : (s.setKeyLevel k b).v = s.v := rfl
@[simp] theorem State.setKeyLevel_i : (s.setKeyLevel k b).i = s.i := rfl
@[simp] theorem State.setKeyLevel_pc : (s.setKeyLevel k b).pc = s.pc := rfl
@[simp] theorem State.setKeyLevel_stack : (s.setKeyLevel k b).stack = s.stack := rfl
@[simp] theorem State.setKeyLevel_sp : (s.setKeyLevel k b).sp = s.sp := rfl
@[simp] theorem State.setKeyLevel_mem : (s.setKeyLevel k b).mem = s.mem := rfl
@[simp] theorem State.setKeyLevel_disp : (s.setKeyLevel k b).disp = s.disp := rfl
@[simp] theorem State.setKeyLevel_dirty : (s.setKeyLevel k b).dirty = s.dirty := rfl
@[simp] theorem State.setKeyLevel_keys : (s.setKeyLevel k b).keys = s.keys.set k b := rfl
@[simp] theorem State.setKeyLevel_dt : (s.setKeyLevel k b).dt = s.dt := rfl
@[simp] theorem State.setKeyLevel_st : (s.setKeyLevel k b).st = s.st := rfl
@[simp] theorem State.setKeyLevel_fault : (s.setKeyLevel k b).fault = s.fault := rfl
@[simp] theorem State.setKeyLevel_draws : (s.setKeyLevel k b).draws = s.draws := rfl
@[simp] theorem State.setKeyLevel_getV (r' : Reg) : (s.setKeyLevel k b).getV r' = s.getV r' := rfl
end setKeyLevel

section setDt
variable (b : Byte)
@[simp] theorem State.setDt_v : (s.setDt b).v = s.v := rfl
@[simp] theorem State.setDt_i : (s.setDt b).i = s.i := rfl
@[simp] theorem State.setDt_pc : (s.setDt b).pc = s.pc := rfl
@[simp] theorem State.setDt_stack : (s.setDt b).stack = s.stack := rfl
@[simp] theorem State.setDt_sp : (s.setDt b).sp = s.sp := rfl
@[simp] theorem State.setDt_mem : (s.setDt b).mem = s.mem := rfl
@[simp] theorem State.setDt_disp : (s.setDt b).disp = s.disp := rfl
@[simp] theorem State.setDt_dirty : (s.setDt b).dirty = s.dirty := rfl
@[simp] theorem State.setDt_keys : (s.setDt b).keys = s.keys := rfl
@[simp] theorem State.setDt_dt : (s.setDt b).dt = b := rfl
@[simp] theorem State.setDt_st : (s.setDt b).st = s.st := rfl
@[simp] theorem State.setDt_fault : (s.setDt b).fault = s.fault := rfl
@[simp] theorem State.setDt_draws : (s.setDt b).draws = s.draws := rfl
@[simp] theorem State.setDt_getV (r' : Reg) : (s.setDt b).getV r' = s.getV r' := rfl
end setDt

section setSt
variable (b : Byte)
@[simp] theorem State.setSt_v : (s.setSt b).v = s.v := rfl
@[simp] theorem State.setSt_i : (s.setSt b).i = s.i := rfl
@[simp] theorem State.setSt_pc : (s.setSt b).pc = s.pc := rfl
@[simp] theorem State.setSt_stack : (s.setSt b).stack = s.stack := rfl
@[simp] theorem State.setSt_sp : (s.setSt b).sp = s.sp := rfl
@[simp] theorem State.setSt_mem : (s.setSt b).mem = s.mem := rfl
@[simp] theorem State.setSt_disp : (s.setSt b).disp = s.disp := rfl
@[simp] theorem State.setSt_dirty : (s.setSt b).dirty = s.dirty := rfl
@[simp] theorem State.setSt_keys : (s.setSt b).keys = s.keys := rfl
@[simp] theorem State.setSt_dt : (s.setSt b).dt = s.dt := rfl
@[simp] theorem State.setSt_st : (s.setSt b).st = b := rfl
@[simp] theorem State.setSt_fault : (s.setSt b).fault = s.fault := rfl
@[simp] theorem State.setSt_draws : (s.setSt b).draws = s.draws := rfl
@[simp] theorem State.setSt_getV (r' : Reg) : (s.setSt b).getV r' = s.getV r' := rfl
end setSt

section setFault
variable (f : Option Condition)
@[simp] theorem State.setFault_v : (s.setFault f).v = s.v := rfl
@[simp] theorem State.setFault_i : (s.setFault f).i = s.i := rfl
@[simp] theorem State.setFault_pc : (s.setFault f).pc = s.pc := rfl
@[simp] theorem State.setFault_stack : (s.setFault f).stack = s.stack := rfl
@[simp] theorem State.setFault_sp : (s.setFault f).sp = s.sp := rfl
@[simp] theorem State.setFault_mem : (s.setFault f).mem = s.mem := rfl
@[simp] theorem State.setFault_disp : (s.setFault f).disp = s.disp := rfl
@[simp] theorem State.setFault_dirty : (s.setFault f).dirty = s.dirty := rfl
@[simp] theorem State.setFault_keys : (s.setFault f).keys = s.keys := rfl
@[simp] theorem State.setFault_dt : (s.setFault f).dt = s.dt := rfl
@[simp] theorem State.setFault_st : (s.setFault f).st = s.st := rfl
@[simp] theorem State.setFault_fault : (s.setFault f).fault = f := rfl
@[simp] theorem State.setFault_draws : (s.setFault f).draws = s.draws := rfl
@[simp] theorem State.setFault_getV (r' : Reg) : (s.setFault f).getV r' = s.getV r' := rfl
end setFault

section countDraw
@[simp] theorem State.countDraw_v : s.countDraw.v = s.v := rfl
@[simp] theorem State.countDraw_i : s.countDraw.i = s.i := rfl
@[simp] theorem State.countDraw_pc : s.countDraw.pc = s.pc := rfl
@[simp] theorem State.countDraw_stack : s.countDraw.stack = s.stack := rfl
@[simp] theorem State.countDraw_sp : s.countDraw.sp = s.sp := rfl
@[simp] theorem State.countDraw_mem : s.countDraw.mem = s.mem := rfl
@[simp] theorem State.countDraw_disp : s.countDraw.disp = s.disp := rfl
@[simp] theorem State.countDraw_dirty : s.countDraw.dirty = s.dirty := rfl
@[simp] theorem State.countDraw_keys : s.countDraw.keys = s.keys := rfl
@[simp] theorem State.countDraw_dt : s.countDraw.dt = s.dt := rfl
@[simp] theorem State.countDraw_st : s.countDraw.st = s.st := rfl
@[simp] theorem State.countDraw_fault : s.countDraw.fault = s.fault := rfl
@[simp] theorem State.countDraw_draws : s.countDraw.draws = s.draws + 1 := rfl
@[simp] theorem State.countDraw_getV (r' : Reg) : s.countDraw.getV r' = s.getV r' := rfl
end countDraw

section advance
@[simp] theorem State.advance_v : s.advance.v = s.v := rfl
@[simp] theorem State.advance_i : s.advance.i = s.i := rfl
@[simp] theorem State.advance_pc : s.advance.pc = s.pc + 2 := rfl
@[simp] theorem State.advance_stack : s.advance.stack = s.stack := rfl
@[simp] theorem State.advance_sp : s.advance.sp = s.sp := rfl
@[simp] theorem State.advance_mem : s.advance.mem = s.mem := rfl
@[simp] theorem State.advance_disp : s.advance.disp = s.disp := rfl
@[simp] theorem State.advance_dirty : s.advance.dirty = s.dirty := rfl
@[simp] theorem State.advance_keys : s.advance.keys = s.keys := rfl
@[simp] theorem State.advance_dt : s.advance.dt = s.dt := rfl
@[simp] theorem State.advance_st : s.advance.st = s.st := rfl
@[simp] theorem State.advance_fault : s.advance.fault = s.fault := rfl
@[simp] theorem State.advance_draws : s.advance.draws = s.draws := rfl
@[simp] theorem State.advance_getV (r' : Reg) : s.advance.getV r' = s.getV r' := rfl
end advance

section raise
variable (c : Condition)
@[simp] theorem State.raise_v : (s.raise c).v = s.v := rfl
@[simp] theorem State.raise_i : (s.raise c).i = s.i := rfl
@[simp] theorem State.raise_pc : (s.raise c).pc = s.pc := rfl
@[simp] theorem State.raise_stack : (s.raise c).stack = s.stack := rfl
@[simp] theorem State.raise_sp : (s.raise c).sp = s.sp := rfl
@[simp] theorem State.raise_mem : (s.raise c).mem = s.mem := rfl
@[simp] theorem State.raise_disp : (s.raise c).disp = s.disp := rfl
@[simp] theorem State.raise_dirty : (s.raise c).dirty = s.dirty := rfl
@[simp] theorem State.raise_keys : (s.raise c).keys = s.keys := rfl
@[simp] theorem State.raise_dt : (s.raise c).dt = s.dt := rfl
@[simp] theorem State.raise_st : (s.raise c).st = s.st := rfl
@[simp] theorem State.raise_fault : (s.raise c).fault = some c := rfl
@[simp] theorem State.raise_draws : (s.raise c).draws = s.draws := rfl
@[simp] theorem State.raise_getV (r' : Reg) : (s.raise c).getV r' = s.getV r' := rfl
end raise

@[simp] theorem State.setV_getV_self (r : Reg) (b : Byte) : (s.setV r b).getV r = b := by
  simp [State.getV]

theorem State.setV_getV_ne {r r' : Reg} (b : Byte) (h : r' ≠ r) : (s.setV r b).getV r' = s.getV r' := by
  have : r.val ≠ r'.val := fun e => h (Fin.ext e.symm)
  simp [State.getV, this]

/-- Reading a register after a register write, in one form. -/
theorem State.setV_getV (r r' : Reg) (b : Byte) :
    (s.setV r b).getV r' = if r' = r then b else s.getV r' := by
  by_cases h : r' = r
  · subst h; simp
  · simp [h, State.setV_getV_ne]

theorem State.skipIf_eq (taken : Bool) : s.skipIf taken = s.setPc (if taken then s.pc + 2 else s.pc) := by
  cases taken <;> rfl

end Sys2Proof.Machine
end

