-- ==== Sys2Proof/Laws/Display.lean ====
section
/-! SUPPORT. The frame buffer: pixels after one inversion (R212), after a clear (R211), and everything a draw can do
(R212). -/

namespace Sys2Proof.Machine

/-- Inverting a pixel changes that pixel alone. -/
theorem Display.pixel_invert (d : Display) (x px : Fin 64) (y py : Fin 32) :
    (d.invert x y).pixel px py = if px = x ∧ py = y then !d.pixel x y else d.pixel px py := by
  unfold Display.pixel Display.invert
  by_cases hy : py = y
  · subst hy
    by_cases hx : px = x
    · subst hx; simp
    · have : x.val ≠ px.val := fun e => hx (Fin.ext e.symm)
      simp [hx, this]
  · have : y.val ≠ py.val := fun e => hy (Fin.ext e.symm)
    simp [hy, this]

@[simp] theorem Display.pixel_clear (x : Fin 64) (y : Fin 32) : Display.clear.pixel x y = false := by
  simp [Display.pixel, Display.clear]

@[simp] theorem wrapX_val (n : Nat) : (wrapX n).val = n % 64 := rfl

@[simp] theorem wrapY_val (n : Nat) : (wrapY n).val = n % 32 := rfl

theorem spriteBit_config (row : Byte) (col : Nat) : spriteBit config row col = row.getLsbD (7 - col) := rfl

/-! ## A whole sprite -/

/-- Everything drawing the columns `cols` of one sprite row does: the pixels under its 1 bits are inverted, and a hit is
recorded iff one of them was set (R212). -/
theorem Blit.columns_spec (row : Byte) (x0 : Nat) (y : Fin 32) (cols : List Nat) (hnd : cols.Nodup) (hlt : ∀ c ∈ cols, c < 8)
    (b : Blit) :
    (∀ px py, (Blit.columns config row x0 y b cols).disp.pixel px py =
      if py = y ∧ ∃ c ∈ cols, px.val = (x0 + c) % 64 ∧ row.getLsbD (7 - c) = true then !b.disp.pixel px py else b.disp.pixel px py) ∧
    ((Blit.columns config row x0 y b cols).hit = true ↔ b.hit = true ∨ ∃ px, (∃ c ∈ cols, px.val = (x0 + c) % 64 ∧ row.getLsbD (7 - c) = true) ∧ b.disp.pixel px y = true) := by
  induction cols generalizing b with
  | nil => simp [Blit.columns]
  | cons c cs ih =>
    simp only [List.nodup_cons] at hnd
    have hc := hlt c (by simp)
    have ih := ih hnd.2 (fun d hd => hlt d (by simp [hd]))
    simp only [Blit.columns]
    by_cases hb' : spriteBit config row c = true
    · rw [if_pos hb']
      have hb : row.getLsbD (7 - c) = true := hb'
      obtain ⟨ih1, ih2⟩ := ih (b.dot (wrapX (x0 + c)) y)
      have hne : ∀ px : Fin 64, px = wrapX (x0 + c) → ¬ ∃ d ∈ cs, px.val = (x0 + d) % 64 ∧ row.getLsbD (7 - d) = true := by
        rintro px rfl ⟨d, hd, he, -⟩
        have := hlt d (by simp [hd])
        have : d ≠ c := fun e => hnd.1 (e ▸ hd)
        simp at he
        omega
      constructor
      · intro px py
        rw [ih1]
        simp only [Blit.dot, Display.pixel_invert]
        by_cases hx : px = wrapX (x0 + c)
        · by_cases hy : py = y
          · subst hx hy
            rw [if_neg (by intro h; exact hne _ rfl h.2), if_pos ⟨rfl, rfl⟩, if_pos ⟨rfl, c, by simp, rfl, hb⟩]
          · simp [hy]
        · have : px.val ≠ (x0 + c) % 64 := fun e => hx (Fin.ext e)
          simp [hx, this]
      · rw [ih2]
        simp only [Blit.dot, Display.pixel_invert, Bool.or_eq_true]
        constructor
        · rintro ((h | h) | ⟨px, h1, h2⟩)
          · exact .inl h
          · exact .inr ⟨_, ⟨c, by simp, rfl, hb⟩, h⟩
          · have : px ≠ wrapX (x0 + c) := fun e => hne _ e h1
            simp [this] at h2
            obtain ⟨d, hd, h⟩ := h1
            exact .inr ⟨px, ⟨d, by simp [hd], h⟩, h2⟩
        · rintro (h | ⟨px, ⟨d, hd, h1, h2⟩, h3⟩)
          · exact .inl (.inl h)
          · by_cases hx : px = wrapX (x0 + c)
            · subst hx; exact .inl (.inr h3)
            · refine .inr ⟨px, ⟨d, ?_, h1, h2⟩, by simpa [hx] using h3⟩
              rcases List.mem_cons.mp hd with rfl | h
              · exact absurd (Fin.ext h1) hx
              · exact h
    · rw [if_neg hb']
      have hb : ¬ row.getLsbD (7 - c) = true := hb'
      obtain ⟨ih1, ih2⟩ := ih b
      constructor
      · intro px py; rw [ih1]; simp [hb]
      · rw [ih2]; simp [hb]

/-- A 1 bit of the sprite `rows` at (x0, y0) falls on the pixel (R212). -/
def Blit.Covers (rows : List Byte) (x0 y0 : Nat) (px : Fin 64) (py : Fin 32) : Prop :=
  ∃ r, ∃ h : r < rows.length, ∃ c < 8, px.val = (x0 + c) % 64 ∧ py.val = (y0 + r) % 32 ∧ (rows[r]).getLsbD (7 - c) = true

theorem Blit.covers_cons (row : Byte) (rows : List Byte) (x0 y0 : Nat) (px : Fin 64) (py : Fin 32) : Blit.Covers (row :: rows) x0 y0 px py ↔
   (py.val = y0 % 32 ∧ ∃ c < 8, px.val = (x0 + c) % 64 ∧ row.getLsbD (7 - c) = true) ∨ Blit.Covers rows x0 (y0+1) px py := by
  constructor
  · rintro ⟨r, h, c, hc, h1, h2, h3⟩
    cases r with
    | zero => exact .inl ⟨h2, c, hc, h1, h3⟩
    | succ r => exact .inr ⟨r, by simpa using h, c, hc, h1, by omega, by simpa using h3⟩
  · rintro (⟨h2, c, hc, h1, h3⟩ | ⟨r, h, c, hc, h1, h2, h3⟩)
    · exact ⟨0, by simp, c, hc, h1, h2, h3⟩
    · exact ⟨r + 1, by simpa using h, c, hc, h1, by omega, by simpa using h3⟩

open Classical in
/-- Everything drawing a sprite of at most 31 rows does: exactly the covered pixels are inverted, and a hit is recorded
iff a covered one was set (R212). -/
theorem Blit.rows_spec (rows : List Byte) (x0 y0 : Nat) (hl : rows.length ≤ 31) (b : Blit) :
    (∀ px py, (Blit.rows config x0 y0 b rows).disp.pixel px py =
      if Blit.Covers rows x0 y0 px py then !b.disp.pixel px py else b.disp.pixel px py) ∧
    ((Blit.rows config x0 y0 b rows).hit = true ↔ b.hit = true ∨ ∃ px py, Blit.Covers rows x0 y0 px py ∧ b.disp.pixel px py = true) := by
  induction rows generalizing b y0 with
  | nil => simp [Blit.rows, Blit.Covers]
  | cons row rows ih =>
    simp only [List.length_cons] at hl
    simp only [Blit.rows]
    obtain ⟨c1, c2⟩ := Blit.columns_spec row x0 (wrapY y0) (List.range 8) (List.nodup_range) (by simp) b
    obtain ⟨i1, i2⟩ := ih (y0 + 1) (by omega) (Blit.columns config row x0 (wrapY y0) b (List.range 8))
    have hdis : ∀ px py, py = wrapY y0 → ¬ Blit.Covers rows x0 (y0 + 1) px py := by
      rintro px py rfl ⟨r, h, c, hc, h1, h2, h3⟩
      simp at h2; omega
    have hw : ∀ py : Fin 32, py.val = y0 % 32 ↔ py = wrapY y0 := fun py => ⟨fun e => Fin.ext e, fun e => e ▸ rfl⟩
    simp only [List.mem_range] at c1 c2
    constructor
    · intro px py
      rw [i1, c1]
      simp only [Blit.covers_cons, hw]
      by_cases hy : py = wrapY y0
      · have := hdis px py hy
        simp [this]
      · simp [hy]
    · rw [i2, c2]
      simp only [Blit.covers_cons, hw, c1]
      constructor
      · rintro ((h | ⟨px, h1, h2⟩) | ⟨px, py, h1, h2⟩)
        · exact .inl h
        · exact .inr ⟨px, _, .inl ⟨rfl, h1⟩, h2⟩
        · have : py ≠ wrapY y0 := fun e => hdis px py e h1
          exact .inr ⟨px, py, .inr h1, by simpa [this] using h2⟩
      · rintro (h | ⟨px, py, (⟨rfl, h1⟩ | h1), h2⟩)
        · exact .inl (.inl h)
        · exact .inl (.inr ⟨px, h1, h2⟩)
        · have : py ≠ wrapY y0 := fun e => hdis px py e h1
          exact .inr ⟨px, py, h1, by simpa [this] using h2⟩

end Sys2Proof.Machine
end

