-- ==== Sys2Proof/Laws/Memory.lean ====
section
/-! SUPPORT. Memory: a read after a write (R63, R73), and that every memory operation keeps the canonical form. -/

namespace Sys2Proof.Machine

/-! ## A read after a write -/

theorem Memory.read_insert (a : Nat) (b : Byte) (m : Memory) (a' : Nat) :
    (m.insert a b).read a' = if a' = a then b else m.read a' := by
  induction m with
  | nil =>
    by_cases h : a' = a
    · simp [Memory.insert, Memory.read, h]
    · simp [Memory.insert, Memory.read, h, Ne.symm h]
  | cons cell m ih =>
    obtain ⟨k, c⟩ := cell
    simp only [Memory.insert]
    split
    · by_cases h : a' = a
      · simp [Memory.read, h]
      · simp [Memory.read, h, Ne.symm h]
    · split
      · subst a
        by_cases h : a' = k
        · simp [Memory.read, h]
        · simp [Memory.read, h, Ne.symm h]
      · by_cases h : k = a'
        · subst h; simp [Memory.read, Ne.symm ‹a ≠ k›]
        · simp [Memory.read, h, ih]

theorem Memory.erase_cons_self (a : Nat) (c : Byte) (m : Memory) :
    Memory.erase a ((a, c) :: m) = Memory.erase a m := by
  simp [Memory.erase]

theorem Memory.erase_cons_ne {a k : Nat} (h : k ≠ a) (c : Byte) (m : Memory) :
    Memory.erase a ((k, c) :: m) = (k, c) :: Memory.erase a m := by
  simp [Memory.erase, h]

theorem Memory.read_erase (a : Nat) (m : Memory) (a' : Nat) :
    (Memory.erase a m).read a' = if a' = a then Memory.blank else m.read a' := by
  induction m with
  | nil => simp [Memory.erase, Memory.read]
  | cons cell m ih =>
    obtain ⟨k, c⟩ := cell
    by_cases hk : k = a
    · subst hk
      rw [Memory.erase_cons_self, ih]
      by_cases h : a' = k
      · simp [h]
      · simp [Memory.read, h, Ne.symm h]
    · rw [Memory.erase_cons_ne hk]
      by_cases h : k = a'
      · subst h; simp [Memory.read, hk]
      · simp only [Memory.read, h, if_false, ih]

/-- Everything a byte write does to reads: the written address gives the byte, every other is as before (R63). -/
theorem Memory.read_write (m : Memory) (a : Nat) (b : Byte) (a' : Nat) :
    (m.write a b).read a' = if a' = a then b else m.read a' := by
  unfold Memory.write
  split
  · subst b; exact Memory.read_erase a m a'
  · exact Memory.read_insert a b m a'

/-- The bytes of a multi-byte store and all the others, under the decided ADDR_POLICY (R65). -/
theorem Memory.read_writeBytes (m : Memory) (base : Nat) (bs : List Byte) (a : Nat) :
    (m.writeBytes config base bs).read a =
      if h : base ≤ a ∧ a < base + bs.length then bs[a - base]'(by omega) else m.read a := by
  induction bs generalizing m base with
  | nil => simp [Memory.writeBytes]
  | cons b bs ih =>
    simp only [Memory.writeBytes, ih, Memory.read_write, List.length_cons]
    have hc : cellOf config base = base := rfl
    rw [hc]
    by_cases h1 : base + 1 ≤ a ∧ a < base + 1 + bs.length
    · have h2 : base ≤ a ∧ a < base + (bs.length + 1) := by omega
      rw [dif_pos h1, dif_pos h2]
      have : a - base = (a - (base + 1)) + 1 := by omega
      simp [this]
    · rw [dif_neg h1]
      by_cases h3 : a = base
      · subst h3; simp
      · rw [if_neg h3, dif_neg (by omega)]

/-! ## Accesses inside memory do not depend on ADDR_POLICY (D5, U3) -/

theorem cellOf_mask {a : Nat} (h : a < memSize) : cellOf { config with addrPolicy := .mask } a = a :=
  Nat.mod_eq_of_lt h

theorem Memory.readBytes_mask (m : Memory) {base n : Nat} (h : n = 0 ∨ base + n ≤ memSize) :
    m.readBytes { config with addrPolicy := .mask } base n = m.readBytes config base n := by
  apply List.map_congr_left
  intro k hk
  rw [List.mem_range] at hk
  rw [cellOf_mask (by omega)]
  rfl

theorem Memory.writeBytes_mask (m : Memory) {base : Nat} {bs : List Byte} (h : base + bs.length ≤ memSize) :
    m.writeBytes { config with addrPolicy := .mask } base bs = m.writeBytes config base bs := by
  induction bs generalizing m base with
  | nil => rfl
  | cons b bs ih =>
    rw [List.length_cons] at h
    simp only [Memory.writeBytes]
    rw [cellOf_mask (show base < memSize by omega), ih _ (by omega)]
    rfl

/-! ## The canonical form -/

theorem Memory.wfFrom_mono {lo lo' : Nat} {m : Memory} (h : Memory.wfFrom lo m) (hl : lo' ≤ lo) :
    Memory.wfFrom lo' m := by
  cases m with
  | nil => rfl
  | cons cell m =>
    obtain ⟨a, b⟩ := cell
    simp only [Memory.wfFrom, Bool.and_eq_true, decide_eq_true_eq] at h ⊢
    exact ⟨⟨⟨by omega, h.1.1.2⟩, h.1.2⟩, h.2⟩

theorem Memory.wfFrom_insert {lo : Nat} {m : Memory} (h : Memory.wfFrom lo m) {a : Nat} {b : Byte}
    (hlo : lo ≤ a) (ha : a < memSize) (hb : b ≠ Memory.blank) : Memory.wfFrom lo (m.insert a b) := by
  induction m generalizing lo with
  | nil => simpa [Memory.insert, Memory.wfFrom, hlo, ha] using hb
  | cons cell m ih =>
    obtain ⟨k, c⟩ := cell
    simp only [Memory.wfFrom, Bool.and_eq_true, decide_eq_true_eq] at h
    obtain ⟨⟨⟨h1, h2⟩, h3⟩, h4⟩ := h
    simp only [Memory.insert]
    split
    · simp only [Memory.wfFrom, Bool.and_eq_true, decide_eq_true_eq]
      exact ⟨⟨⟨hlo, ha⟩, hb⟩, ⟨⟨⟨by omega, h2⟩, h3⟩, h4⟩⟩
    · split
      · subst a
        simp only [Memory.wfFrom, Bool.and_eq_true, decide_eq_true_eq]
        exact ⟨⟨⟨h1, h2⟩, hb⟩, h4⟩
      · simp only [Memory.wfFrom, Bool.and_eq_true, decide_eq_true_eq]
        exact ⟨⟨⟨h1, h2⟩, h3⟩, ih h4 (by omega)⟩

theorem Memory.wfFrom_erase {lo : Nat} {m : Memory} (h : Memory.wfFrom lo m) (a : Nat) :
    Memory.wfFrom lo (Memory.erase a m) := by
  induction m generalizing lo with
  | nil => rfl
  | cons cell m ih =>
    obtain ⟨k, c⟩ := cell
    simp only [Memory.wfFrom, Bool.and_eq_true, decide_eq_true_eq] at h
    obtain ⟨⟨⟨h1, h2⟩, h3⟩, h4⟩ := h
    by_cases hk : k = a
    · subst hk
      rw [Memory.erase_cons_self]
      exact Memory.wfFrom_mono (ih h4) (by omega)
    · rw [Memory.erase_cons_ne hk]
      simp only [Memory.wfFrom, Bool.and_eq_true, decide_eq_true_eq]
      exact ⟨⟨⟨h1, h2⟩, h3⟩, ih h4⟩

/-- A write inside memory keeps the canonical form. -/
theorem Memory.wf_write {m : Memory} (h : m.wf) {a : Nat} (ha : a < memSize) (b : Byte) : (m.write a b).wf := by
  unfold Memory.write
  split
  · exact Memory.wfFrom_erase h a
  · exact Memory.wfFrom_insert h (Nat.zero_le a) ha ‹_›

/-- A multi-byte store inside memory keeps the canonical form. -/
theorem Memory.wf_writeBytes {m : Memory} (h : m.wf) {base : Nat} {bs : List Byte}
    (hb : base + bs.length ≤ memSize) : (m.writeBytes config base bs).wf := by
  induction bs generalizing m base with
  | nil => exact h
  | cons b bs ih =>
    simp only [List.length_cons] at hb
    exact ih (Memory.wf_write h (show base < memSize by omega) b) (by omega)

end Sys2Proof.Machine
end

