-- ==== Sys2Proof/Laws/Ops.lean ====
section
/-! SUPPORT. One lemma for each shared operation, saying once everything it can do; later proofs cite these. -/

namespace Sys2Proof.Machine

/-! ## The execute phase -/

theorem execute_ok {rule : State → Except Condition State} {s t : State} (h : rule s.advance = .ok t) :
    execute rule s = .next t := by
  simp [execute, h]

theorem execute_error {rule : State → Except Condition State} {s : State} {c : Condition}
    (h : rule s.advance = .error c) : execute rule s = .next (s.raise c) := by
  simp [execute, h]

/-- Everything the execute phase can do: the rule's result, or the latched condition (R125). -/
theorem execute_cases {rule : State → Except Condition State} {s t : State} (h : execute rule s = .next t) :
    rule s.advance = .ok t ∨ ∃ c, rule s.advance = .error c ∧ t = s.raise c := by
  unfold execute at h
  split at h
  · exact .inl (by simp_all)
  · exact .inr ⟨_, ‹_›, by simpa using h.symm⟩

/-- The execute phase always answers a next state. -/
theorem execute_completes (rule : State → Except Condition State) (s : State) : ∃ t, execute rule s = .next t := by
  unfold execute
  split <;> exact ⟨_, rfl⟩

/-! ## Access checks, loads and stores under the decided ADDR_POLICY -/

theorem accessOk_iff (base n : Nat) : accessOk config base n = true ↔ n = 0 ∨ base + n ≤ 4096 := by
  simp [accessOk, config]

@[simp] theorem cellOf_config (a : Nat) : cellOf config a = a := rfl

theorem loadBytes_ok {s : State} {base n : Nat} (h : n = 0 ∨ base + n ≤ 4096) :
    loadBytes config s base n = .ok ((List.range n).map fun k => s.mem.read (base + k)) := by
  simp [loadBytes, (accessOk_iff base n).mpr h, Memory.readBytes]

theorem loadBytes_error {s : State} {base n : Nat} (h : ¬ (n = 0 ∨ base + n ≤ 4096)) :
    loadBytes config s base n = .error .addressOutOfRange := by
  simp [loadBytes, mt (accessOk_iff base n).mp h]

theorem storeBytes_ok {s : State} {base : Nat} {bs : List Byte} (h : base + bs.length ≤ 4096) :
    storeBytes config s base bs = .ok (s.setMem (s.mem.writeBytes config base bs)) := by
  simp [storeBytes, (accessOk_iff base bs.length).mpr (.inr h)]

theorem storeBytes_error {s : State} {base : Nat} {bs : List Byte} (h : ¬ (bs.length = 0 ∨ base + bs.length ≤ 4096)) :
    storeBytes config s base bs = .error .addressOutOfRange := by
  simp [storeBytes, mt (accessOk_iff base bs.length).mp h]

/-! ## Operand forms -/

@[simp] theorem address_toNat (nnn : Addr12) : (address nnn).toNat = nnn.toNat := by
  simp [address]
  omega

@[simp] theorem shiftOperand_config (x y : Reg) (s : State) : shiftOperand config x y s = s.getV x := rfl

theorem keyIndex_some {b : Byte} {k : Key} (h : b.toNat = k.val) : keyIndex config b = some k := by
  have hb : b.toNat < 16 := by omega
  have : (⟨b.toNat, hb⟩ : Key) = k := Fin.ext h
  simp [keyIndex, config, hb, this]

theorem keyIndex_none {b : Byte} (h : 15 < b.toNat) : keyIndex config b = none := by
  simp [keyIndex, config]
  omega

@[simp] theorem glyphAddress_toNat (b : Byte) : (glyphAddress config b).toNat = 0x050 + 5 * b.toNat := by
  have := b.isLt
  show (0x050 + 5 * b.toNat) % 65536 = _
  omega

@[simp] theorem offsetTarget_toNat (b : Byte) (nnn : Addr12) : (offsetTarget b nnn).toNat = b.toNat + nnn.toNat := by
  have := b.isLt
  simp [offsetTarget]
  omega

@[simp] theorem indexSum_toNat (i : Word) (b : Byte) : (indexSum i b).toNat = (i.toNat + b.toNat) % 65536 := by
  simp [indexSum]

/-! ## Result and flag -/

theorem carryFlag_iff (a b : Byte) : carryFlag a b = true ↔ 255 < a.toNat + b.toNat := by
  simp [carryFlag]

theorem greaterFlag_iff (a b : Byte) : greaterFlag a b = true ↔ b.toNat < a.toNat := by
  simp [greaterFlag]

theorem shrOut_iff (a : Byte) : shrOut a = true ↔ a.toNat % 2 = 1 := by
  simp [shrOut, BitVec.getLsbD, Nat.testBit_eq_decide_div_mod_eq]

theorem shlOut_iff (a : Byte) : shlOut a = true ↔ 128 ≤ a.toNat := by
  have := a.isLt
  simp [shlOut, BitVec.getLsbD, Nat.testBit_eq_decide_div_mod_eq]
  omega

@[simp] theorem flagByte_toNat (f : Bool) : (flagByte f).toNat = if f then 1 else 0 := by
  cases f <;> rfl

theorem writeResultAndFlag_eq (s : State) (x : Reg) (b : Byte) (f : Bool) :
    s.writeResultAndFlag config x b f = (s.setV x b).setV VF (flagByte f) := rfl

/-- What a register holds after a flag-writing instruction: VF the flag, X (if another) the result (R172). -/
theorem writeResultAndFlag_getV (s : State) (x : Reg) (b : Byte) (f : Bool) (r : Reg) :
    (s.writeResultAndFlag config x b f).getV r =
      if r = VF then flagByte f else if r = x then b else s.getV r := by
  rw [writeResultAndFlag_eq, State.setV_getV, State.setV_getV]

/-! ## Registers to and from lists of bytes -/

@[simp] theorem regsUpTo_length (s : State) (x : Reg) : (s.regsUpTo x).length = x.val + 1 := by
  simp [State.regsUpTo]

@[simp] theorem bcdDigits_length (b : Byte) : (bcdDigits b).length = 3 := rfl

/-- A register load changes V alone. -/
theorem loadRegsFrom_eq (s : State) (k : Nat) (bs : List Byte) :
    s.loadRegsFrom k bs = { s with v := (s.loadRegsFrom k bs).v } := by
  induction bs generalizing s k with
  | nil => rfl
  | cons b bs ih =>
    simp only [State.loadRegsFrom]
    rw [ih]
    rfl

/-- What a register holds after loading `bs` into V[k], V[k + 1], ... (R195). -/
theorem loadRegsFrom_getV (s : State) (k : Nat) (bs : List Byte) (h : k + bs.length ≤ 16) (r : Reg) :
    (s.loadRegsFrom k bs).getV r =
      if h' : k ≤ r.val ∧ r.val < k + bs.length then bs[r.val - k]'(by omega) else s.getV r := by
  induction bs generalizing s k with
  | nil =>
    rw [dif_neg (by simp)]
    rfl
  | cons b bs ih =>
    simp only [List.length_cons] at h
    simp only [State.loadRegsFrom, List.length_cons]
    rw [ih _ _ (by omega), State.setV_getV]
    by_cases h1 : k + 1 ≤ r.val ∧ r.val < k + 1 + bs.length
    · rw [dif_pos h1, dif_pos (by omega)]
      have : r.val - k = (r.val - (k + 1)) + 1 := by omega
      simp [this]
    · rw [dif_neg h1]
      by_cases h2 : r.val = k
      · have h3 : r = Fin.ofNat 16 k := Fin.ext (by simp [Fin.ofNat]; omega)
        rw [if_pos h3, dif_pos (by omega)]
        simp [h2]
      · have h3 : r ≠ Fin.ofNat 16 k := fun e => h2 (by rw [e]; simp [Fin.ofNat]; omega)
        rw [if_neg h3, dif_neg (by omega)]

end Sys2Proof.Machine
end

