-- ==== Sys2Proof/Laws/PerInstr.lean ====
section
/-! SUPPORT. Per instruction: its encoding meets the mask and match of its own row of the opcode table (R98). -/

namespace Sys2Proof.Laws.EncodesItsRow

/-- Some row of the opcode table carries the instruction's mnemonic and is selected by its encoding (R98). -/
def Statement (i : Instr) : Prop := ∃ r ∈ opcodeTable, r.mnemonic = i.mnemonic ∧ r.selects (encode i) = true

/-- A word meets a row whose mask is F000 (R95). -/
theorem selects_F000 {name : String} {w p : Word} (h : w.toNat / 4096 * 4096 = p.toNat) :
    OpcodeRow.selects ⟨name, 0xF000, p⟩ w = true :=
  decide_eq_true (BitVec.eq_of_toNat_eq ((and_F000_toNat w).trans h))

/-- A word meets a row whose mask is F00F (R96). -/
theorem selects_F00F {name : String} {w p : Word} (h : w.toNat / 4096 * 4096 + w.toNat % 16 = p.toNat) :
    OpcodeRow.selects ⟨name, 0xF00F, p⟩ w = true :=
  decide_eq_true (BitVec.eq_of_toNat_eq ((and_F00F_toNat w).trans h))

/-- A word meets a row whose mask is F0FF (R96). -/
theorem selects_F0FF {name : String} {w p : Word} (h : w.toNat / 4096 * 4096 + w.toNat % 256 = p.toNat) :
    OpcodeRow.selects ⟨name, 0xF0FF, p⟩ w = true :=
  decide_eq_true (BitVec.eq_of_toNat_eq ((and_F0FF_toNat w).trans h))

theorem cls : Statement .cls :=
  ⟨⟨"CLS", 0xF0FF, 0x00E0⟩, by decide, rfl, selects_F0FF (rfl)⟩

theorem ret : Statement .ret :=
  ⟨⟨"RET", 0xF0FF, 0x00EE⟩, by decide, rfl, selects_F0FF (rfl)⟩

theorem jp (nnn : Addr12) : Statement (.jp nnn) :=
  ⟨⟨"JP", 0xF000, 0x1000⟩, by decide, rfl, selects_F000 (by
    simp only [encode, encA_toNat, BitVec.reduceToNat]; omega)⟩

theorem call (nnn : Addr12) : Statement (.call nnn) :=
  ⟨⟨"CALL", 0xF000, 0x2000⟩, by decide, rfl, selects_F000 (by
    simp only [encode, encA_toNat, BitVec.reduceToNat]; omega)⟩

theorem seImm (x : Reg) (nn : Byte) : Statement (.seImm x nn) :=
  ⟨⟨"SE_IMM", 0xF000, 0x3000⟩, by decide, rfl, selects_F000 (by
    simp only [encode, encRI_toNat, BitVec.reduceToNat]; omega)⟩

theorem sneImm (x : Reg) (nn : Byte) : Statement (.sneImm x nn) :=
  ⟨⟨"SNE_IMM", 0xF000, 0x4000⟩, by decide, rfl, selects_F000 (by
    simp only [encode, encRI_toNat, BitVec.reduceToNat]; omega)⟩

theorem seReg (x : Reg) (y : Reg) : Statement (.seReg x y) :=
  ⟨⟨"SE_REG", 0xF000, 0x5000⟩, by decide, rfl, selects_F000 (by
    simp only [encode, encRR_toNat, BitVec.reduceToNat]; omega)⟩

theorem ldImm (x : Reg) (nn : Byte) : Statement (.ldImm x nn) :=
  ⟨⟨"LD_IMM", 0xF000, 0x6000⟩, by decide, rfl, selects_F000 (by
    simp only [encode, encRI_toNat, BitVec.reduceToNat]; omega)⟩

theorem addImm (x : Reg) (nn : Byte) : Statement (.addImm x nn) :=
  ⟨⟨"ADD_IMM", 0xF000, 0x7000⟩, by decide, rfl, selects_F000 (by
    simp only [encode, encRI_toNat, BitVec.reduceToNat]; omega)⟩

theorem ldReg (x : Reg) (y : Reg) : Statement (.ldReg x y) :=
  ⟨⟨"LD_REG", 0xF00F, 0x8000⟩, by decide, rfl, selects_F00F (by
    simp only [encode, encRR_toNat, BitVec.reduceToNat]; omega)⟩

theorem orReg (x : Reg) (y : Reg) : Statement (.orReg x y) :=
  ⟨⟨"OR", 0xF00F, 0x8001⟩, by decide, rfl, selects_F00F (by
    simp only [encode, encRR_toNat, BitVec.reduceToNat]; omega)⟩

theorem andReg (x : Reg) (y : Reg) : Statement (.andReg x y) :=
  ⟨⟨"AND", 0xF00F, 0x8002⟩, by decide, rfl, selects_F00F (by
    simp only [encode, encRR_toNat, BitVec.reduceToNat]; omega)⟩

theorem xorReg (x : Reg) (y : Reg) : Statement (.xorReg x y) :=
  ⟨⟨"XOR", 0xF00F, 0x8003⟩, by decide, rfl, selects_F00F (by
    simp only [encode, encRR_toNat, BitVec.reduceToNat]; omega)⟩

theorem addReg (x : Reg) (y : Reg) : Statement (.addReg x y) :=
  ⟨⟨"ADD_REG", 0xF00F, 0x8004⟩, by decide, rfl, selects_F00F (by
    simp only [encode, encRR_toNat, BitVec.reduceToNat]; omega)⟩

theorem sub (x : Reg) (y : Reg) : Statement (.sub x y) :=
  ⟨⟨"SUB", 0xF00F, 0x8005⟩, by decide, rfl, selects_F00F (by
    simp only [encode, encRR_toNat, BitVec.reduceToNat]; omega)⟩

theorem shr (x : Reg) (y : Reg) : Statement (.shr x y) :=
  ⟨⟨"SHR", 0xF00F, 0x8006⟩, by decide, rfl, selects_F00F (by
    simp only [encode, encRR_toNat, BitVec.reduceToNat]; omega)⟩

theorem subn (x : Reg) (y : Reg) : Statement (.subn x y) :=
  ⟨⟨"SUBN", 0xF00F, 0x8007⟩, by decide, rfl, selects_F00F (by
    simp only [encode, encRR_toNat, BitVec.reduceToNat]; omega)⟩

theorem shl (x : Reg) (y : Reg) : Statement (.shl x y) :=
  ⟨⟨"SHL", 0xF00F, 0x800E⟩, by decide, rfl, selects_F00F (by
    simp only [encode, encRR_toNat, BitVec.reduceToNat]; omega)⟩

theorem sneReg (x : Reg) (y : Reg) : Statement (.sneReg x y) :=
  ⟨⟨"SNE_REG", 0xF000, 0x9000⟩, by decide, rfl, selects_F000 (by
    simp only [encode, encRR_toNat, BitVec.reduceToNat]; omega)⟩

theorem ldI (nnn : Addr12) : Statement (.ldI nnn) :=
  ⟨⟨"LD_I", 0xF000, 0xA000⟩, by decide, rfl, selects_F000 (by
    simp only [encode, encA_toNat, BitVec.reduceToNat]; omega)⟩

theorem jpV0 (nnn : Addr12) : Statement (.jpV0 nnn) :=
  ⟨⟨"JP_V0", 0xF000, 0xB000⟩, by decide, rfl, selects_F000 (by
    simp only [encode, encA_toNat, BitVec.reduceToNat]; omega)⟩

theorem rnd (x : Reg) (nn : Byte) : Statement (.rnd x nn) :=
  ⟨⟨"RND", 0xF000, 0xC000⟩, by decide, rfl, selects_F000 (by
    simp only [encode, encRI_toNat, BitVec.reduceToNat]; omega)⟩

theorem drw (x : Reg) (y : Reg) (n : Nibble) : Statement (.drw x y n) :=
  ⟨⟨"DRW", 0xF000, 0xD000⟩, by decide, rfl, selects_F000 (by
    simp only [encode, encRR_toNat, BitVec.reduceToNat]; omega)⟩

theorem skp (x : Reg) : Statement (.skp x) :=
  ⟨⟨"SKP", 0xF0FF, 0xE09E⟩, by decide, rfl, selects_F0FF (by
    simp only [encode, encRI_toNat, BitVec.reduceToNat]; omega)⟩

theorem sknp (x : Reg) : Statement (.sknp x) :=
  ⟨⟨"SKNP", 0xF0FF, 0xE0A1⟩, by decide, rfl, selects_F0FF (by
    simp only [encode, encRI_toNat, BitVec.reduceToNat]; omega)⟩

theorem ldVxDt (x : Reg) : Statement (.ldVxDt x) :=
  ⟨⟨"LD_VX_DT", 0xF0FF, 0xF007⟩, by decide, rfl, selects_F0FF (by
    simp only [encode, encRI_toNat, BitVec.reduceToNat]; omega)⟩

theorem ldVxK (x : Reg) : Statement (.ldVxK x) :=
  ⟨⟨"LD_VX_K", 0xF0FF, 0xF00A⟩, by decide, rfl, selects_F0FF (by
    simp only [encode, encRI_toNat, BitVec.reduceToNat]; omega)⟩

theorem ldDtVx (x : Reg) : Statement (.ldDtVx x) :=
  ⟨⟨"LD_DT_VX", 0xF0FF, 0xF015⟩, by decide, rfl, selects_F0FF (by
    simp only [encode, encRI_toNat, BitVec.reduceToNat]; omega)⟩

theorem ldStVx (x : Reg) : Statement (.ldStVx x) :=
  ⟨⟨"LD_ST_VX", 0xF0FF, 0xF018⟩, by decide, rfl, selects_F0FF (by
    simp only [encode, encRI_toNat, BitVec.reduceToNat]; omega)⟩

theorem addI (x : Reg) : Statement (.addI x) :=
  ⟨⟨"ADD_I", 0xF0FF, 0xF01E⟩, by decide, rfl, selects_F0FF (by
    simp only [encode, encRI_toNat, BitVec.reduceToNat]; omega)⟩

theorem ldF (x : Reg) : Statement (.ldF x) :=
  ⟨⟨"LD_F", 0xF0FF, 0xF029⟩, by decide, rfl, selects_F0FF (by
    simp only [encode, encRI_toNat, BitVec.reduceToNat]; omega)⟩

theorem ldB (x : Reg) : Statement (.ldB x) :=
  ⟨⟨"LD_B", 0xF0FF, 0xF033⟩, by decide, rfl, selects_F0FF (by
    simp only [encode, encRI_toNat, BitVec.reduceToNat]; omega)⟩

theorem stRegs (x : Reg) : Statement (.stRegs x) :=
  ⟨⟨"ST_REGS", 0xF0FF, 0xF055⟩, by decide, rfl, selects_F0FF (by
    simp only [encode, encRI_toNat, BitVec.reduceToNat]; omega)⟩

theorem ldRegs (x : Reg) : Statement (.ldRegs x) :=
  ⟨⟨"LD_REGS", 0xF0FF, 0xF065⟩, by decide, rfl, selects_F0FF (by
    simp only [encode, encRI_toNat, BitVec.reduceToNat]; omega)⟩

end Sys2Proof.Laws.EncodesItsRow
end

