-- ==== Sys2Proof/Laws/Step.lean ====
section
/-! SUPPORT. What a step can do, said once: exec through the rules, the step's cases, and `step` as `stepWith config`. -/

namespace Sys2Proof.Machine

/-- Every arm of exec is the execute phase around that instruction's rule. -/
theorem exec_eq_execute (i : Instr) (s : State) : exec i s = execute (ruleOf config s.draw i) s := by
  cases i <;> rfl

/-- Everything exec can do: the rule's result on the advanced state, or the latched condition (R125). -/
theorem exec_cases {i : Instr} {s t : State} (h : exec i s = .next t) :
    ruleOf config s.draw i s.advance = .ok t ∨
      ∃ c, ruleOf config s.draw i s.advance = .error c ∧ t = s.raise c :=
  execute_cases (exec_eq_execute i s ▸ h)

theorem fetchWord_ok {s : State} (h : s.pc.toNat ≤ 0xFFE) :
    fetchWord config s = .ok (wordOfBytes (s.mem.read s.pc.toNat) (s.mem.read (s.pc.toNat + 1))) := by
  have : accessOk config s.pc.toNat 2 = true := (accessOk_iff _ _).mpr (.inr (by omega))
  simp [fetchWord, this]

theorem fetchWord_error {s : State} (h : 0xFFE < s.pc.toNat) :
    fetchWord config s = .error .addressOutOfRange := by
  have : ¬ accessOk config s.pc.toNat 2 = true := fun e => by
    have := (accessOk_iff _ _).mp e
    omega
  simp [fetchWord, this]

/-- Everything a step can do: nothing while halted; a latched fetch fault; exec of the decoded instruction; the baseline
advance alone for an unsupported word (R120). -/
theorem step_cases {s t : State} (h : step s = .next t) :
    (s.fault ≠ none ∧ t = s) ∨
    (s.fault = none ∧ 0xFFE < s.pc.toNat ∧ t = s.raise .addressOutOfRange) ∨
    (s.fault = none ∧ s.pc.toNat ≤ 0xFFE ∧ ∃ w i, fetchWord config s = .ok w ∧ decodeWord config w = .ok i ∧
      exec i s = .next t) ∨
    (s.fault = none ∧ s.pc.toNat ≤ 0xFFE ∧ ∃ w e, fetchWord config s = .ok w ∧ decodeWord config w = .error e ∧
      t = s.advance) := by
  unfold step at h
  cases hf : s.fault with
  | some c => simp_all
  | none =>
    rw [hf] at h
    by_cases hp : s.pc.toNat ≤ 0xFFE
    · obtain ⟨w, hw⟩ : ∃ w, fetchWord config s = .ok w := ⟨_, fetchWord_ok hp⟩
      simp only [hw] at h
      cases hd : decodeWord config w with
      | ok i =>
        rw [hd] at h
        exact .inr (.inr (.inl ⟨rfl, hp, w, i, hw, hd, h⟩))
      | error e =>
        rw [hd] at h
        exact .inr (.inr (.inr ⟨rfl, hp, w, e, hw, hd, by simpa [execUnsupported] using h.symm⟩))
    · simp only [fetchWord_error (Nat.lt_of_not_le hp)] at h
      exact .inr (.inl ⟨rfl, by omega, by simpa using h.symm⟩)

/-- The machine of the decided parameters is the one `step` runs. -/
theorem step_eq_stepWith (s : State) : step s = stepWith config s.draw s := by
  simp only [step, stepWith, exec_eq_execute] <;> rfl

end Sys2Proof.Machine
end

