-- ==== Sys2Proof/Laws/Units.lean ====
section
/-! SUPPORT. The keypad scan (R227), the timer countdown (R243), the loads of the host (R303) and its
sessions (R306), bytes after a store (R63), and frames: which parts a store and an update can change. -/

namespace Sys2Proof.Machine

/-! ## Keypad -/

/-- The scan finds the pressed key below which none is pressed (R227). -/
theorem firstKey_eq_some {s : State} {k : Key} (h : s.keyDown k = true)
    (h' : ∀ j : Key, j.val < k.val → s.keyDown j = false) : s.firstKey = some k := by
  unfold State.firstKey
  rw [List.find?_eq_some_iff_getElem]
  refine ⟨h, k.val, by simp, by simp, ?_⟩
  intro j hj
  simp [h' ⟨j, by omega⟩ hj]

/-- The scan finds nothing iff no key is pressed (R227). -/
theorem firstKey_eq_none {s : State} : s.firstKey = none ↔ ∀ k : Key, s.keyDown k = false := by
  simp [State.firstKey]

/-! ## Timers -/

/-- One tick of one timer, floored at 0 (R243). -/
@[simp] theorem countDown_toNat (b : Byte) : (countDown b).toNat = b.toNat - 1 := by
  unfold countDown
  split
  · subst b; rfl
  · have : b.toNat ≠ 0 := fun e => ‹¬ b = 0› (BitVec.eq_of_toNat_eq e)
    have := b.isLt
    simp [BitVec.toNat_sub]
    omega

/-! ## Frames -/

theorem mem_cellsAt {base n a : Nat} : Part.mem a ∈ cellsAt base n ↔ base ≤ a ∧ a < base + n := by
  simp only [cellsAt, List.mem_map, List.mem_range, Part.mem.injEq]
  constructor
  · rintro ⟨k, h, rfl⟩
    omega
  · intro h
    exact ⟨a - base, by omega, by omega⟩

/-- A step's frame may be widened. -/
theorem ChangesOnly.mono {ps qs : List Part} {s t : State} (h : ChangesOnly ps s t) (hpq : ps ⊆ qs) :
    ChangesOnly qs s t := fun p hp => h p fun e => hp (hpq e)

/-- A store changes the cells it stores to and no other part (R63, R65). -/
theorem changesOnly_setMem (s : State) (base : Nat) (bs : List Byte) :
    ChangesOnly (cellsAt base bs.length) s (s.setMem (s.mem.writeBytes config base bs)) := by
  intro p hp
  cases p with
  | mem a =>
    rw [mem_cellsAt] at hp
    simp only [Part.same, State.setMem_mem, Memory.read_writeBytes]
    rw [dif_neg hp]
  | _ => rfl

/-- Reading after a store, in the words of the claims (R63, R65). -/
theorem read_writeBytes_eq_byteAfterStore (s : State) (base : Nat) (bs : List Byte) (a : Nat) :
    (s.mem.writeBytes config base bs).read a = byteAfterStore s base bs a :=
  Memory.read_writeBytes s.mem base bs a

/-- The bytes of a register dump, V0 first (R194). -/
theorem regsUpTo_eq_ofFn (s : State) (x : Reg) :
    s.regsUpTo x = List.ofFn fun k : Fin (x.val + 1) => s.getV ⟨k.val, by omega⟩ := by
  apply List.ext_getElem
  · simp
  · intro k h1 h2
    rw [regsUpTo_length] at h1
    simp only [State.regsUpTo, List.getElem_map, List.getElem_range, List.getElem_ofFn]
    congr 1
    exact Fin.ext (Nat.mod_eq_of_lt (by omega))

/-- A register write changes that register and no other part. -/
theorem changesOnly_setV (s : State) (x : Reg) (b : Byte) : ChangesOnly [.v x] s (s.setV x b) := by
  intro p hp
  cases p with
  | v r =>
    have : r ≠ x := fun e => hp (by simp [e])
    exact State.setV_getV_ne s b this
  | _ => rfl

/-- The baseline advance changes PC and no other part (R122). -/
theorem changesOnly_advance (s : State) : ChangesOnly [.pc] s s.advance := by
  intro p hp
  cases p <;> first | rfl | exact absurd (List.mem_singleton_self _) hp

/-- A skip changes PC and no other part (R148). -/
theorem changesOnly_skipIf (s : State) (taken : Bool) : ChangesOnly [.pc] s (s.skipIf taken) := by
  intro p hp
  cases taken <;> cases p <;> first | rfl | exact absurd (List.mem_singleton_self _) hp

/-- Latching a condition changes FAULT and no other part (R264). -/
theorem changesOnly_raise (s : State) (c : Condition) : ChangesOnly [.fault] s (s.raise c) := by
  intro p hp
  cases p <;> first | rfl | exact absurd (List.mem_singleton_self _) hp

/-! ## Loads of the host -/

/-- A load that fits stores its bytes and changes no other part (R303, R305). -/
theorem loadImage_fits {base limit : Nat} {bytes : List Byte} (s : State) (h : base + bytes.length ≤ limit) :
    loadImage base limit bytes s = (s.setMem (s.mem.writeBytes config base bytes), .success) := by
  simp [loadImage, h]

/-- A load that does not fit changes nothing (R304, R305). -/
theorem loadImage_too_large {base limit : Nat} {bytes : List Byte} (s : State) (h : limit < base + bytes.length) :
    loadImage base limit bytes s = (s, .imageTooLarge) := by
  simp [loadImage, Nat.not_le.mpr h]

/-! ## Sessions of a host that keeps to the boot order -/

@[simp] theorem moveOn_machine (c : Session) (s : State) (op : HostOp) (r : Response) :
    (c.moveOn s op r).machine = s := by
  cases op <;> rfl

/-- An operation that is not allowed is refused with the reason and nothing else (R285). -/
theorem session_refused {op : HostOp} {c : Session} {r : Refusal} (h : c.allowed op = .error r) :
    c.perform op = .refused r := by
  simp [Session.perform, h]

/-- An allowed operation that answers moves the session on (R285). -/
theorem session_next {op : HostOp} {c : Session} {s : State} {r : Response} (h : c.allowed op = .ok ())
    (hp : perform op c.machine = .next (s, r)) : c.perform op = .next (c.moveOn s op r, r) := by
  simp [Session.perform, h, hp]

/-- Everything a session's answer can be: the operation was allowed and answered (R285). -/
theorem session_cases {op : HostOp} {c c' : Session} {r : Response} (h : c.perform op = .next (c', r)) :
    c.allowed op = .ok () ∧ ∃ s, perform op c.machine = .next (s, r) ∧ c' = c.moveOn s op r := by
  unfold Session.perform at h
  cases ha : c.allowed op with
  | error e => simp [ha] at h
  | ok u =>
    cases hp : perform op c.machine with
    | next sr =>
      obtain ⟨s, r'⟩ := sr
      simp only [ha, hp, Host.Outcome.next.injEq, Prod.mk.injEq] at h
      obtain ⟨h1, rfl⟩ := h
      exact ⟨rfl, s, rfl, h1.symm⟩
    | fault e => simp [ha, hp] at h
    | refused e => simp [ha, hp] at h

end Sys2Proof.Machine
end

