-- ==== Sys2Proof/Tests/Slice0.lean ====
section
/-! SUPPORT. Tests of the model and witnesses for the statements. Every expected result is the spec's: the table of R98
for the words, 95_test_vectors.md for the steps (the section is named at each test), the rule named where a vector is
missing. No expected value is the model's own answer. -/

namespace Sys2Proof.Tests

open Sys2Proof Sys2Proof.Machine

/-! ## Helpers -/

/-- Some registers set. -/
def withRegs (s : State) (l : List (Reg × Byte)) : State := l.foldl (fun s p => s.setV p.1 p.2) s

/-- Some bytes of memory set. -/
def withBytes (s : State) (base : Nat) (bs : List Byte) : State := s.setMem (s.mem.writeBytes config base bs)

/-- A display with some pixels set. -/
def dots (l : List (Fin 64 × Fin 32)) : Display := l.foldl (fun d p => d.invert p.1 p.2) Display.clear

/-- The state after one step. -/
def after (s : State) : State :=
  match step s with
  | .next t => t
  | .fault _ => s
  | .refused _ => s

/-- The state after one step on the word `w` placed at PC. -/
def run (w : Nat) (s : State) : State := after (s.withFetchWord 16 w)

/-- The start state of the vectors: reset with some registers set and I given. -/
def start (l : List (Reg × Byte)) (i : Word := 0) : State := { withRegs State.reset l with i := i }

/-! ## Well-formed instructions (R97): the one check, and a term it refuses -/

theorem test_wellFormed_refuses_shr_with_y : (Instr.shr 1 2).wellFormed = false := by decide
theorem test_wellFormed_refuses_shl_with_y : (Instr.shl 1 2).wellFormed = false := by decide
theorem test_wellFormed_accepts_canonical_shifts :
    (Instr.shr 1 0).wellFormed = true ∧ (Instr.shl 15 0).wellFormed = true ∧ (Instr.drw 1 2 3).wellFormed = true := by
  decide

/-! ## Decoding: words written out from the formats and values of R98, one for each constructor -/

/-- R98: 00E0, 00EE, 1NNN, 2NNN, BNNN. -/
theorem test_decode_jumps :
    decodeTableWord 16 0x00EE = some .ret ∧ decodeTableWord 16 0x1234 = some (.jp 0x234) ∧
    decodeTableWord 16 0x2F01 = some (.call 0xF01) ∧ decodeTableWord 16 0xB2FC = some (.jpV0 0x2FC) := by decide

/-- R98: 3XNN, 4XNN, 5XY0, 9XY0. -/
theorem test_decode_skips :
    decodeTableWord 16 0x3A05 = some (.seImm 10 5) ∧ decodeTableWord 16 0x4B06 = some (.sneImm 11 6) ∧
    decodeTableWord 16 0x5120 = some (.seReg 1 2) ∧ decodeTableWord 16 0x9340 = some (.sneReg 3 4) := by decide

/-- R98: 6XNN, 7XNN, CXNN. -/
theorem test_decode_immediates :
    decodeTableWord 16 0x6FFE = some (.ldImm 15 0xFE) ∧ decodeTableWord 16 0x7A02 = some (.addImm 10 2) ∧
    decodeTableWord 16 0xC10F = some (.rnd 1 0x0F) := by decide

/-- R98: 8XY0 to 8XY4. -/
theorem test_decode_group8_low :
    decodeTableWord 16 0x8120 = some (.ldReg 1 2) ∧ decodeTableWord 16 0x8341 = some (.orReg 3 4) ∧
    decodeTableWord 16 0x8562 = some (.andReg 5 6) ∧ decodeTableWord 16 0x8783 = some (.xorReg 7 8) ∧
    decodeTableWord 16 0x8AB4 = some (.addReg 10 11) := by decide

/-- R98: 8XY5 to 8XYE. -/
theorem test_decode_group8_high :
    decodeTableWord 16 0x8125 = some (.sub 1 2) ∧ decodeTableWord 16 0x8106 = some (.shr 1 0) ∧
    decodeTableWord 16 0x8127 = some (.subn 1 2) ∧ decodeTableWord 16 0x8F0E = some (.shl 15 0) := by decide

/-- R98: ANNN, FX1E, FX29, FX33, FX55, FX65. -/
theorem test_decode_index_memory :
    decodeTableWord 16 0xA300 = some (.ldI 0x300) ∧ decodeTableWord 16 0xF21E = some (.addI 2) ∧
    decodeTableWord 16 0xF329 = some (.ldF 3) ∧ decodeTableWord 16 0xF533 = some (.ldB 5) ∧
    decodeTableWord 16 0xF255 = some (.stRegs 2) ∧ decodeTableWord 16 0xF165 = some (.ldRegs 1) := by decide

/-- R98: 00E0, DXYN, EX9E, EXA1, FX0A. -/
theorem test_decode_display_keypad :
    decodeTableWord 16 0x00E0 = some .cls ∧ decodeTableWord 16 0xD123 = some (.drw 1 2 3) ∧
    decodeTableWord 16 0xE19E = some (.skp 1) ∧ decodeTableWord 16 0xE2A1 = some (.sknp 2) ∧
    decodeTableWord 16 0xF30A = some (.ldVxK 3) := by decide

/-- R98: FX07, FX15, FX18. -/
theorem test_decode_timers :
    decodeTableWord 16 0xF207 = some (.ldVxDt 2) ∧ decodeTableWord 16 0xF315 = some (.ldDtVx 3) ∧
    decodeTableWord 16 0xF418 = some (.ldStVx 4) := by decide

/-- R99 and 95_test_vectors.md 2.1. -/
theorem test_decode_unsupported :
    decodeTableWord 16 0xFFFF = none ∧ decodeTableWord 16 0x0000 = none ∧ decodeTableWord 16 0x0123 = none ∧
    decodeTableWord 16 0x00E1 = none ∧ decodeTableWord 16 0x8128 = none ∧ decodeTableWord 16 0x812F = none ∧
    decodeTableWord 16 0xE19F = none ∧ decodeTableWord 16 0xF100 = none ∧ decodeTableWord 16 0xF11F = none := by decide

/-- R97 (D2): don't-care bits. -/
theorem test_decode_noncanonical :
    decodeTableWord 16 0x07EE = some .ret ∧ decodeTableWord 16 0x0AE0 = some .cls ∧
    decodeTableWord 16 0x512F = some (.seReg 1 2) ∧ decodeTableWord 16 0x912F = some (.sneReg 1 2) := by decide

/-- The encoder on the same words, bit by bit (R93, R98). -/
theorem test_encode_words :
    encode (.addReg 10 11) = 0x8AB4 ∧ encode (.jpV0 0x2FC) = 0xB2FC ∧ encode (.seImm 10 5) = 0x3A05 ∧
    encode (.stRegs 2) = 0xF255 ∧ encode .ret = 0x00EE := by decide

/-! ## Control flow (95_test_vectors.md 2.2) -/

theorem test_ret_sp16 :
    let s := run 0x00EE { State.reset with sp := 16, stack := Vector.replicate 16 0 |>.set 15 0x0ABC }
    s.pc = 0xABC ∧ s.sp = 15 := by decide
theorem test_ret_underflow :
    let s := run 0x00EE State.reset
    s.pc = 0x200 ∧ s.fault = some .stackUnderflow := by decide
theorem test_jp : (run 0x1234 State.reset).pc = 0x234 := by decide
theorem test_call_sp15 :
    let s := run 0x2300 { State.reset with sp := 15 }
    s.pc = 0x300 ∧ s.sp = 16 ∧ s.stack[15] = 0x202 := by decide
theorem test_call_overflow :
    let s := run 0x2300 { State.reset with sp := 16 }
    s.pc = 0x200 ∧ s.sp = 16 ∧ s.fault = some .stackOverflow := by decide
theorem test_se_imm_taken : (run 0x3A05 (start [(10, 5)])).pc = 0x204 := by decide
theorem test_se_imm_not_taken : (run 0x3A05 (start [(10, 6)])).pc = 0x202 := by decide
theorem test_sne_imm_taken : (run 0x4A05 (start [(10, 6)])).pc = 0x204 := by decide
theorem test_sne_imm_not_taken : (run 0x4A05 (start [(10, 5)])).pc = 0x202 := by decide
theorem test_se_reg_taken : (run 0x5120 (start [(1, 7), (2, 7)])).pc = 0x204 := by decide
theorem test_se_reg_not_taken : (run 0x5120 (start [(1, 7), (2, 8)])).pc = 0x202 := by decide
theorem test_sne_reg_taken : (run 0x9120 (start [(1, 7), (2, 8)])).pc = 0x204 := by decide
theorem test_sne_reg_not_taken : (run 0x9120 (start [(1, 7), (2, 7)])).pc = 0x202 := by decide
theorem test_jp_v0_offset_is_v0 : (run 0xB2FC (start [(0, 4), (2, 0x77)])).pc = 0x300 := by decide
theorem test_jp_v0_not_masked : (run 0xBFFF (start [(0, 0xFF)])).pc = 0x10FE := by decide

/-! ## Load, arithmetic, logic, shift, random (95_test_vectors.md 2.3) -/

theorem test_ld_imm_vf : (run 0x6FFF State.reset).getV VF = 0xFF := by decide
theorem test_add_imm_wraps_no_flag :
    let s := run 0x7A02 (start [(10, 0xFF)])
    s.getV 10 = 1 ∧ s.getV VF = 0 := by decide
theorem test_ld_reg : (run 0x8120 (start [(2, 0x33)])).getV 1 = 0x33 := by decide
theorem test_or_keeps_vf :
    let s := run 0x8121 (start [(1, 0x0F), (2, 0xF0), (15, 1)])
    s.getV 1 = 0xFF ∧ s.getV VF = 1 := by decide
theorem test_and_keeps_vf :
    let s := run 0x8122 (start [(1, 0x3C), (2, 0x0F), (15, 1)])
    s.getV 1 = 0x0C ∧ s.getV VF = 1 := by decide
theorem test_xor_keeps_vf :
    let s := run 0x8123 (start [(1, 0xFF), (2, 0x0F), (15, 1)])
    s.getV 1 = 0xF0 ∧ s.getV VF = 1 := by decide
/-- Source example S1. -/
theorem test_add_reg_carry :
    let s := run 0x8AB4 (start [(10, 0xFA), (11, 0x0A)])
    s.getV 10 = 4 ∧ s.getV VF = 1 := by decide
theorem test_add_reg_vf_as_destination : (run 0x8F14 (start [(15, 0x10), (1, 0x20)])).getV VF = 0 := by decide
/-- Source example S2. -/
theorem test_sub_equal_gives_flag_0 :
    let s := run 0x8125 (start [(1, 5), (2, 5), (15, 1)])
    s.getV 1 = 0 ∧ s.getV VF = 0 := by decide
theorem test_sub_old_vf_is_operand :
    let s := run 0x81F5 (start [(1, 9), (15, 1)])
    s.getV 1 = 8 ∧ s.getV VF = 1 := by decide
theorem test_shr_ignores_vy :
    let s := run 0x8126 (start [(1, 4), (2, 0xFF), (15, 1)])
    s.getV 1 = 2 ∧ s.getV 2 = 0xFF ∧ s.getV VF = 0 := by decide
theorem test_shr_logical :
    let s := run 0x8106 (start [(1, 0xFF)])
    s.getV 1 = 0x7F ∧ s.getV VF = 1 := by decide
theorem test_subn_borrow :
    let s := run 0x8127 (start [(1, 0x0A), (2, 3), (15, 1)])
    s.getV 1 = 0xF9 ∧ s.getV VF = 0 := by decide
theorem test_subn_greater :
    let s := run 0x8127 (start [(1, 3), (2, 0x0A)])
    s.getV 1 = 7 ∧ s.getV VF = 1 := by decide
theorem test_shl_out :
    let s := run 0x810E (start [(1, 0x81)])
    s.getV 1 = 2 ∧ s.getV VF = 1 := by decide
theorem test_shl_vf : (run 0x8F0E (start [(15, 0x01)])).getV VF = 0 := by decide
/-- R173 on the drawn byte 0xA7. -/
theorem test_rnd_masks_the_draw :
    (match rndRule 0xA7 1 0x0F State.reset with
      | .ok t => t.getV 1
      | .error _ => 0xFF) = 0x07 := by decide
theorem test_rnd_advances : (run 0xC10F State.reset).pc = 0x202 := by decide

/-! ## Index register and memory (95_test_vectors.md 2.4) -/

theorem test_ld_i : (run 0xAFFF State.reset).i = 0x0FFF := by decide
theorem test_add_i_wraps : (run 0xF21E (start [(2, 0xFF)] 0xFF80)).i = 0x007F := by decide
theorem test_add_i_not_masked :
    let s := run 0xF21E (start [(2, 1)] 0x0FFF)
    s.i = 0x1000 ∧ s.getV VF = 0 := by decide
theorem test_ld_f : (run 0xF329 (start [(3, 0x0A)])).i = 0x0082 := by decide
theorem test_ld_f_not_masked : (run 0xF329 (start [(3, 0xFF)] 0x0123)).i = 0x054B := by decide
/-- Source example S3. -/
theorem test_ld_b_156 :
    let s := run 0xF533 (start [(5, 156)] 0x300)
    s.mem.readBytes config 0x300 3 = [1, 5, 6] ∧ s.i = 0x300 := by decide
theorem test_ld_b_no_partial_store :
    let s := run 0xF533 (start [(5, 99)] 0xFFE)
    s.fault = some .addressOutOfRange ∧ s.mem.read 0xFFF = 0 ∧ s.pc = 0x200 := by decide
theorem test_st_regs :
    let s := run 0xF255 (start [(0, 1), (1, 2), (2, 3), (3, 4)] 0x300)
    s.mem.readBytes config 0x300 4 = [1, 2, 3, 0] ∧ s.i = 0x300 := by decide
theorem test_st_regs_no_partial_store :
    let s := run 0xF155 (start [(0, 0x77), (1, 0x88)] 0xFFF)
    s.fault = some .addressOutOfRange ∧ s.mem.read 0xFFF = 0 := by decide
theorem test_ld_regs :
    let s := run 0xF165 (withBytes (start [] 0x300) 0x300 [0xAA, 0xBB, 0xCC])
    s.getV 0 = 0xAA ∧ s.getV 1 = 0xBB ∧ s.getV 2 = 0 ∧ s.i = 0x300 := by decide
theorem test_ld_regs_no_partial_load :
    let s := run 0xF165 (withBytes (start [] 0xFFF) 0xFFF [0x42])
    s.fault = some .addressOutOfRange ∧ s.getV 0 = 0 := by decide

/-! ## Display (95_test_vectors.md 2.5) -/

theorem test_cls :
    let s := run 0x00E0 { State.reset with disp := dots [(0, 0), (63, 31)] }
    s.disp.pixel 0 0 = false ∧ s.disp.pixel 63 31 = false ∧ s.dirty = true := by decide
theorem test_drw_wraps_per_pixel :
    let s := run 0xD122 (withBytes (start [(1, 62), (2, 31)] 0x300) 0x300 [0xF0, 0x90])
    s.disp.pixel 62 31 = true ∧ s.disp.pixel 1 31 = true ∧ s.disp.pixel 2 31 = false ∧ s.disp.pixel 62 0 = true ∧
      s.disp.pixel 63 0 = false ∧ s.disp.pixel 1 0 = true ∧ s.getV VF = 0 := by decide
/-- Source example S8. -/
theorem test_drw_collision :
    let s := run 0xD011 (withBytes { start [] 0x300 with disp := dots [(1, 0)] } 0x300 [0xC0])
    s.disp.pixel 0 0 = true ∧ s.disp.pixel 1 0 = false ∧ s.getV VF = 1 ∧ s.dirty = true := by decide

/-! ## Keypad (95_test_vectors.md 2.6) -/

theorem test_skp_pressed : (run 0xE19E ((start [(1, 0x0A)]).setKeyLevel 10 true)).pc = 0x204 := by decide
theorem test_skp_index_16_faults :
    let s := run 0xE19E ((start [(1, 0x10)]).setKeyLevel 0 true)
    s.fault = some .keyIndexOutOfRange ∧ s.pc = 0x200 := by decide
theorem test_sknp_released : (run 0xE1A1 (start [(1, 0x0A)])).pc = 0x204 := by decide
theorem test_sknp_pressed : (run 0xE1A1 ((start [(1, 0x0A)]).setKeyLevel 10 true)).pc = 0x202 := by decide
theorem test_ld_vx_k_lowest :
    let s := run 0xF30A ((State.reset.setKeyLevel 7 true).setKeyLevel 9 true)
    s.getV 3 = 7 ∧ s.pc = 0x202 := by decide
theorem test_ld_vx_k_waits :
    let s := run 0xF30A (start [(3, 0x55)])
    s.getV 3 = 0x55 ∧ s.pc = 0x200 := by decide

/-! ## Timers and host operations (95_test_vectors.md 2.7, 2.8) -/

theorem test_ld_vx_dt : (run 0xF207 { State.reset with dt := 0x3C }).getV 2 = 0x3C := by decide
theorem test_ld_dt_vx : (run 0xF215 { start [(2, 0x3C)] with st := 9 }).dt = 60 := by decide
theorem test_ld_st_vx :
    let s := run 0xF218 { start [(2, 2)] with dt := 9 }
    s.st = 2 ∧ s.dt = 9 := by decide
theorem test_tick_sounds_at_1 :
    let r := tick { State.reset with dt := 5, st := 1 }
    r.1.dt = 4 ∧ r.1.st = 0 ∧ r.2 = true := by decide
theorem test_tick_floor :
    let r := tick State.reset
    r.1.dt = 0 ∧ r.1.st = 0 ∧ r.2 = false := by decide
theorem test_load_program :
    let r := loadProgram [0x60, 0x0A] State.reset
    r.2 = .success ∧ r.1.mem.read 0x200 = 0x60 ∧ r.1.mem.read 0x201 = 0x0A := by decide
/-- R285: a step is allowed after loading, and not after a rejected load (U4). -/
theorem test_step_needs_a_load :
    Session.fresh.allowed .step = .error .stepBeforeLoad ∧
    (Session.fresh.moveOn State.reset (.loadProgram []) (.loaded .imageTooLarge)).allowed .step = .error .stepBeforeLoad ∧
    (Session.fresh.moveOn State.reset (.loadProgram []) (.loaded .success)).allowed .step = .ok () := ⟨rfl, rfl, rfl⟩
/-- Source example S5. -/
theorem test_unsupported_is_reported :
    (run 0xFFFF State.reset).pc = 0x202 ∧ reportOf config (State.reset.withFetchWord 16 0xFFFF) = some ⟨0xFFFF, 0x200⟩ := by
  decide
/-- 95_test_vectors.md 2.1: the last fetchable address, and an odd one. -/
theorem test_fetch_at_top : (run 0x600A { State.reset with pc := 0xFFE }).pc = 0x1000 := by decide
theorem test_fetch_at_odd_pc :
    (after { withBytes State.reset 0x200 [0x12, 0x60, 0x0A] with pc := 0x201 }).getV 0 = 0x0A := by decide
theorem test_fault_codes :
    faultCode none = 0 ∧ faultCode (some .addressOutOfRange) = 1 ∧ faultCode (some .stackOverflow) = 2 ∧
    faultCode (some .stackUnderflow) = 3 ∧ faultCode (some .keyIndexOutOfRange) = 4 := by decide

/-! ## Witnesses: concrete states and operands that meet all hypotheses of each statement that has some, one for each
clause, at the ends of its range. A statement not listed has no hypotheses. -/

/-- A halted machine. -/
def halted : State := { State.reset with fault := some .stackOverflow }

/-- A session after a program load (R306). -/
def loaded : Session := ⟨(loadProgram [0x60, 0x0A] State.reset).1, true, false⟩

/-- A session after a load and a step (R306). -/
def running : Session := ⟨after loaded.machine, true, true⟩

/-- Two live return addresses at the ends of their range, PC at the top of its range. -/
def deep : State :=
  { State.reset with
    pc := 0x10FE
    sp := 2
    stack := (Vector.replicate 16 0 |>.set 0 0x0002) |>.set 1 0x1000
    mem := [(0, 1), (0x200, 0x60), (0xFFF, 2)] }

theorem witness_StepRunsDecodedInstruction :
    let s := State.reset.withFetchWord 16 0x8AB4
    s.fault = none ∧ s.pc.toNat ≤ 0xFFE ∧
      decodeBytes config [s.mem.read s.pc.toNat, s.mem.read (s.pc.toNat + 1)] = .ok (.addReg 10 11, []) :=
  ⟨rfl, by decide, rfl⟩

theorem witness_StepRunsDecodedInstruction_last_address :
    let s := ({ State.reset with pc := 0xFFE } : State).withFetchWord 16 0x600A
    s.fault = none ∧ s.pc.toNat ≤ 0xFFE ∧
      decodeBytes config [s.mem.read s.pc.toNat, s.mem.read (s.pc.toNat + 1)] = .ok (.ldImm 0 0x0A, []) :=
  ⟨rfl, by decide, rfl⟩

theorem witness_HaltedStepAndTickChangeNothing : halted.fault ≠ none := by decide

theorem witness_FetchOutsideMemoryFaults :
    ({ State.reset with pc := 0xFFF } : State).fault = none ∧ 0xFFE < ({ State.reset with pc := 0xFFF } : State).pc.toNat := by
  decide

/-- Both clauses: an unsupported word and a supported one. -/
theorem witness_UnsupportedWordIsReportedAndSkipped :
    (State.reset.fault = none ∧ State.reset.pc.toNat ≤ 0xFFE ∧
      wordOfBytes (State.reset.mem.read State.reset.pc.toNat) (State.reset.mem.read (State.reset.pc.toNat + 1)) = 0x0000 ∧
      unsupportedWord 0x0000) ∧
    (let s := ({ State.reset with pc := 0xFFE } : State).withFetchWord 16 0x600A
     s.fault = none ∧ s.pc.toNat ≤ 0xFFE ∧
      wordOfBytes (s.mem.read s.pc.toNat) (s.mem.read (s.pc.toNat + 1)) = 0x600A ∧ ¬ unsupportedWord 0x600A) := by
  refine ⟨⟨rfl, by decide, rfl, ?_⟩, rfl, by decide, rfl, ?_⟩ <;> simp [unsupportedWord]

/-- Both cases of every raising instruction at the ends of their ranges. -/
theorem witness_InstructionsRaiseExactlyTheTabledConditions :
    raisedBy (.call 0) { State.reset with sp := 16 } = some .stackOverflow ∧
    raisedBy (.call 0) { State.reset with sp := 15 } = none ∧
    raisedBy .ret State.reset = some .stackUnderflow ∧ raisedBy .ret { State.reset with sp := 1 } = none ∧
    raisedBy (.skp 0) (start [(0, 16)]) = some .keyIndexOutOfRange ∧ raisedBy (.skp 0) (start [(0, 15)]) = none ∧
    raisedBy (.sknp 0) (start [(0, 16)]) = some .keyIndexOutOfRange ∧ raisedBy (.sknp 0) (start [(0, 15)]) = none ∧
    raisedBy (.drw 0 0 2) (start [] 0xFFF) = some .addressOutOfRange ∧ raisedBy (.drw 0 0 1) (start [] 0xFFF) = none ∧
    raisedBy (.drw 0 0 0) (start [] 0xFFFF) = none ∧
    raisedBy (.ldB 0) (start [] 0xFFE) = some .addressOutOfRange ∧ raisedBy (.ldB 0) (start [] 0xFFD) = none ∧
    raisedBy (.stRegs 15) (start [] 0xFF1) = some .addressOutOfRange ∧ raisedBy (.stRegs 15) (start [] 0xFF0) = none ∧
    raisedBy (.ldRegs 0) (start [] 0x1000) = some .addressOutOfRange ∧ raisedBy (.ldRegs 0) (start [] 0xFFF) = none := by
  decide

/-- A step that completes on an instruction, one on an unsupported word, and one that raises. -/
theorem witness_PcAfterStepFollowsTheLaw :
    (let s := State.reset.withFetchWord 16 0x1234
     s.fault = none ∧ fetchWord config s = .ok 0x1234 ∧ step s = .next (after s) ∧ (after s).fault = none) ∧
    (let s := State.reset
     s.fault = none ∧ fetchWord config s = .ok 0x0000 ∧ step s = .next (after s) ∧ (after s).fault = none) ∧
    (let s := State.reset.withFetchWord 16 0x00EE
     s.fault = none ∧ fetchWord config s = .ok 0x00EE ∧ step s = .next (after s) ∧ (after s).fault ≠ none) :=
  ⟨⟨rfl, rfl, rfl, rfl⟩, ⟨rfl, rfl, rfl, rfl⟩, ⟨rfl, rfl, rfl, by decide⟩⟩

theorem witness_CallPushesReturnAddress :
    (0 : Fin 16).val = State.reset.sp.val ∧ (15 : Fin 16).val = ({ State.reset with sp := 15 } : State).sp.val := by decide

theorem witness_ReturnPopsAddress :
    (0 : Fin 16).val + 1 = ({ State.reset with sp := 1 } : State).sp.val ∧
    (15 : Fin 16).val + 1 = ({ State.reset with sp := 16 } : State).sp.val := by decide

/-- The overflow clause and the underflow clause. -/
theorem witness_StackLimitsFault :
    ({ State.reset with sp := 16 } : State).sp.val = 16 ∧ State.reset.sp.val = 0 := by decide

/-- The call clause with its return, and the clause at 16 live calls. -/
theorem witness_ReturnRestoresCallersPc :
    (let s := ({ State.reset with sp := 15 } : State)
     s.sp.val < 16 ∧ (after (s.withFetchWord 16 0x2300)).sp = 16) ∧
    ({ State.reset with sp := 16 } : State).sp.val = 16 := by decide

/-- Both clauses for X below 15, and X = 15, where only the flag clause speaks. -/
theorem witness_AddAndSubtractWriteResultThenFlag : (14 : Reg) ≠ 15 ∧ (0 : Reg) ≠ 15 := by decide

theorem witness_ShiftsMoveOneBitIntoTheFlag : (14 : Reg) ≠ 15 ∧ (0 : Reg) ≠ 15 := by decide

/-- A bit outside the mask. -/
theorem witness_RandomStaysInsideItsMask : 7 < 8 ∧ (0x0F : Byte).getLsbD 7 = false := by decide

theorem witness_BcdStoresDecimalDigits : (start [] 0xFFD).i.toNat + 2 ≤ 0xFFF := by decide

theorem witness_RegisterDumpStoresV0ToVx :
    (start [] 0xFF0).i.toNat + (15 : Reg).val ≤ 0xFFF ∧ (start [] 0xFFF).i.toNat + (0 : Reg).val ≤ 0xFFF := by decide

theorem witness_RegisterLoadFillsV0ToVx :
    (start [] 0xFF0).i.toNat + (15 : Reg).val ≤ 0xFFF ∧ (start [] 0xFFF).i.toNat + (0 : Reg).val ≤ 0xFFF := by decide

/-- One witness for each of the three clauses, at the first address that is too high. -/
theorem witness_AccessesLeavingMemoryFault :
    0xFFF < (start [] 0xFFE).i.toNat + 2 ∧ 0xFFF < (start [] 0xFF1).i.toNat + (15 : Reg).val ∧
    0 < (2 : Nibble).toNat ∧ 0xFFF < (start [] 0xFFF).i.toNat + (2 : Nibble).toNat - 1 := by decide

theorem witness_LoadAfterDumpRestoresRegisters : (start [] 0xFF0).i.toNat + (15 : Reg).val ≤ 0xFFF := by decide

/-- Dumps that reach both bytes, the first and the last byte alone; a stored word that decodes; LD B at its last address. -/
theorem witness_StoreIsSeenByTheNextFetch :
    let s (i : Word) := { start [(0, 0x60), (1, 0x0A)] i with pc := 0xFFC }
    (s 0).fault = none ∧ (s 0).pc.toNat + 3 ≤ 0xFFF ∧
    (s 0xFF0).i.toNat + (15 : Reg).val ≤ 0xFFF ∧ (s 0xFFF).i.toNat + (0 : Reg).val ≤ 0xFFF ∧
    (s 0xFFE).i.toNat + (0 : Reg).val ≤ 0xFFF ∧ (s 0xFFE).i.toNat + (1 : Reg).val ≤ 0xFFF ∧
    decodeWord config (wordOfBytes 0x60 0x0A) = .ok (.ldImm 0 0x0A) ∧ (s 0xFFD).i.toNat + 2 ≤ 0xFFF :=
  ⟨rfl, by decide, by decide, by decide, by decide, by decide, rfl, by decide⟩

/-- Both hypotheses, a covered pixel that is set, a covered one that is not, and an uncovered one. -/
theorem witness_DrawInvertsExactlyTheSpritesPixels :
    ((0 : Nibble).toNat = 0 ∨ (start [] 0xFFFF).i.toNat + (0 : Nibble).toNat - 1 ≤ 0xFFF) ∧
    ((1 : Nibble).toNat = 0 ∨ (start [] 0xFFF).i.toNat + (1 : Nibble).toNat - 1 ≤ 0xFFF) ∧
    (let s := withBytes { start [(0, 63), (1, 31)] 0xFFF with disp := dots [(0, 31)] } 0xFFF [0xC0]
     SpriteCovers s (s.getV 0) (s.getV 1) 1 63 31 ∧ s.disp.pixel 63 31 = false ∧
     SpriteCovers s (s.getV 0) (s.getV 1) 1 0 31 ∧ s.disp.pixel 0 31 = true ∧
     ¬ SpriteCovers s (s.getV 0) (s.getV 1) 1 1 31) := by
  unfold SpriteCovers
  decide

/-- The hypotheses, a covered pixel that is unset, and a display where every covered pixel is set. -/
theorem witness_DrawingTwiceRestoresTheDisplay :
    let s := withBytes (start [] 0xFFF) 0xFFF [0x80]
    (0 : Reg) ≠ 15 ∧ (14 : Reg) ≠ 15 ∧ s.i.toNat + (1 : Nibble).toNat ≤ 0x1000 ∧
    SpriteCovers s (s.getV 0) (s.getV 14) 1 0 0 ∧ s.disp.pixel 0 0 = false := by
  unfold SpriteCovers
  decide

theorem witness_KeySkipsTestTheNamedKey :
    ((start [(1, 15)]).getV 1).toNat = (15 : Key).val ∧ ((start [(1, 0)]).getV 1).toNat = (0 : Key).val := by decide

theorem witness_KeyIndexAbove15Faults : 15 < ((start [(1, 16)]).getV 1).toNat := by decide

/-- The clause with keys 7 and 9 pressed, the one with key 0 pressed, and the one with none pressed. -/
theorem witness_WaitForKeyTakesTheLeastPressedKey :
    (let s := (State.reset.setKeyLevel 7 true).setKeyLevel 9 true
     s.keyDown 7 = true ∧ ∀ j : Key, j.val < (7 : Key).val → s.keyDown j = false) ∧
    (let s := State.reset.setKeyLevel 0 true
     s.keyDown 0 = true ∧ ∀ j : Key, j.val < (0 : Key).val → s.keyDown j = false) ∧
    (∀ k : Key, State.reset.keyDown k = false) := by decide

/-- The running clause with a timer at 1 and at 0, and the halted clause. -/
theorem witness_TickCountsBothTimersDown :
    ({ State.reset with st := 1 } : State).fault = none ∧ ({ State.reset with st := 1 } : State).st.toNat = 1 ∧
    State.reset.fault = none ∧ halted.fault ≠ none := by decide

theorem witness_ExactlyTheNthTickSounds :
    ({ State.reset with st := 3 } : State).fault = none ∧ 2 + 1 = ({ State.reset with st := 3 } : State).st.toNat := by decide

/-- A flag-writing instruction, a draw that raises nothing, and a register that a third instruction does not write. -/
theorem witness_OnlySixInstructionsWriteTheFlag :
    exec (.addReg 0 1) State.reset = .next { State.reset with pc := 0x202 } ∧
    raisedBy (.drw 0 1 0) State.reset = none ∧ writesV (.ldImm 0 5) 15 = false :=
  ⟨rfl, by decide, rfl⟩

theorem witness_EachPartHasOnlyItsWriters :
    (let s := ({ State.reset with dirty := true } : State)
     exec (.jp 0x300) s = .next { s with pc := 0x300 } ∧ s.dirty = true) ∧
    (∀ x, Instr.jp 0x300 ≠ .ldB x) ∧ (∀ x, Instr.jp 0x300 ≠ .stRegs x) ∧ (∀ n, Instr.jp 0x300 ≠ .ldI n) ∧
    (∀ x, Instr.jp 0x300 ≠ .addI x) ∧ (∀ x, Instr.jp 0x300 ≠ .ldF x) ∧ (∀ n, Instr.jp 0x300 ≠ .call n) ∧
    Instr.jp 0x300 ≠ .ret ∧ Instr.jp 0x300 ≠ .cls ∧ (∀ x y n, Instr.jp 0x300 ≠ .drw x y n) ∧
    (∀ x, Instr.jp 0x300 ≠ .ldDtVx x) ∧ (∀ x, Instr.jp 0x300 ≠ .ldStVx x) := by
  refine ⟨⟨rfl, rfl⟩, ?_⟩
  simp

/-- A state with live slots and PC at the ends of their ranges that meets the invariant, and one it can step from. -/
theorem witness_EveryStepKeepsTheInvariant :
    deep.Inv ∧ step deep = .next (after deep) ∧
    ({ deep with pc := 0x200 } : State).Inv ∧
    step { deep with pc := 0x200 } = .next (after { deep with pc := 0x200 }) :=
  ⟨⟨rfl, by decide, by decide⟩, rfl, ⟨rfl, by decide, by decide⟩, rfl⟩

theorem witness_EveryHostOperationKeepsTheInvariant : deep.Inv := ⟨rfl, by decide, by decide⟩

/-- Two machines that differ in a stale slot, in ST and in DIRTY. -/
theorem witness_ProgramsCannotSeeStaleSlotsSoundOrDirty :
    let s := State.reset.withFetchWord 16 0x8AB4
    let t := { s with stack := s.stack.set 3 0x0ABC, st := 7, dirty := true }
    AgreeForPrograms s t ∧ s ≠ t ∧ step s = .next (after s) :=
  ⟨⟨rfl, rfl, rfl, rfl, by decide, rfl, rfl, rfl, rfl, rfl, rfl⟩, by decide, rfl⟩

/-- A store to the last byte of memory, which completes. -/
theorem witness_MaskingMachineAgreesUnlessAFaultIsRaised :
    let s := (start [(0, 0x77)] 0xFFF).withFetchWord 16 0xF055
    step s = .next (after s) ∧ (after s).fault = none := ⟨rfl, rfl⟩

/-- An accepted word, and a refused one. -/
theorem witness_DecoderAgreesWithTheOpcodeTable :
    decodeWord config 0x07EE = .ok .ret ∧ decodeWord config 0xFFFF = .error (.unsupported 0xFFFF) ∧
    OpcodeRow.selects ⟨"RET", 0xF0FF, 0x00EE⟩ 0x07EE = true := ⟨rfl, rfl, by decide⟩

/-- The largest image that fits, by its length. -/
theorem witness_LoadProgramCopiesTheImage : (List.replicate 3584 (0 : Byte)).length ≤ 3584 :=
  Nat.le_of_eq List.length_replicate

theorem witness_OversizedImageIsRejectedWhole : 3584 < (List.replicate 3585 (0 : Byte)).length := by
  rw [List.length_replicate]; omega

/-- Both clauses at the limit. -/
theorem witness_LoadFontCopiesBelowTheProgram :
    (List.replicate 432 (0 : Byte)).length ≤ 432 ∧ 432 < (List.replicate 433 (0 : Byte)).length := by
  rw [List.length_replicate, List.length_replicate]; omega

/-- A running session, a loaded one, a fresh one, and answers of a step, a tick, a load and a construct. -/
theorem witness_LoadsHaveAMoveOnlyBeforeTheFirstStep :
    running.started = true ∧ (loaded.started = false ∧ loaded.programLoaded = true) ∧
    (Session.fresh.started = false ∧ Session.fresh.programLoaded = false) ∧
    loaded.perform .step = .next (⟨after loaded.machine, true, true⟩, .stepped none) ∧
    running.perform .tick = .next (running, .ticked false) ∧
    Session.fresh.perform (.loadProgram [0x60, 0x0A]) = .next (loaded, .loaded .success) ∧
    running.perform .construct = .next (Session.fresh, .done) ∧
    HostOp.tick ≠ .construct ∧ HostOp.tick ≠ .step ∧ (∀ b, HostOp.tick ≠ .loadProgram b) :=
  ⟨rfl, ⟨rfl, rfl⟩, ⟨rfl, rfl⟩, rfl, rfl, rfl, rfl, nofun, nofun, nofun⟩

/-- A session without a program, a loaded one, and an operation that is neither a step nor a load. -/
theorem witness_StepsHaveAMoveOnlyAfterLoading :
    Session.fresh.programLoaded = false ∧ loaded.programLoaded = true ∧
    HostOp.tick ≠ .step ∧ (∀ b, HostOp.tick ≠ .loadProgram b) ∧ (∀ b, HostOp.tick ≠ .loadFont b) ∧
    running.perform .tick = .next (running, .ticked false) :=
  ⟨rfl, rfl, nofun, nofun, nofun, rfl⟩

end Sys2Proof.Tests
end

/-! # Proofs: the state (10_state.md)

Layers: the rules that can raise a condition, each with its equation per case; the equations of a step; the invariant
(R40); what no program can see (R25, R29, R32); the frame of all 34 instructions (R20 to R38). -/

namespace Sys2Proof.Machine

/-! ## The rules that test something, one equation per case -/

section ConditionalRules
variable {s t : State} {x y : Reg} {n : Nibble} {nnn : Addr12}

theorem sp_eq_zero_or_succ (s : State) : s.sp.val = 0 ∨ ∃ k : Fin 16, s.sp.val = k.val + 1 := by
  by_cases h : s.sp.val = 0
  · exact .inl h
  · exact .inr ⟨⟨s.sp.val - 1, by omega⟩, (Nat.sub_add_cancel (Nat.pos_of_ne_zero h)).symm⟩

theorem sp_eq_full_or_slot (s : State) : s.sp.val = 16 ∨ ∃ k : Fin 16, s.sp.val = k.val := by
  by_cases h : s.sp.val < 16
  · exact .inr ⟨⟨s.sp.val, h⟩, rfl⟩
  · exact .inl (by omega)

theorem retRule_empty (h : s.sp.val = 0) : retRule s = .error .stackUnderflow := by
  simp [retRule, h]

theorem retRule_pop {k : Fin 16} (h : s.sp.val = k.val + 1) :
    retRule s = .ok ((s.setSp k.castSucc).setPc s.stack[k]) := by
  have hk : (⟨s.sp.val - 1, by omega⟩ : Fin 16) = k := Fin.ext (by simp [h])
  unfold retRule
  rw [dif_neg (by omega)]
  simp only [hk]

theorem callRule_full (h : s.sp.val = 16) : callRule nnn s = .error .stackOverflow := by
  simp [callRule, h]

theorem callRule_push {k : Fin 16} (h : s.sp.val = k.val) :
    callRule nnn s = .ok (((s.setStack k s.pc).setSp k.succ).setPc (address nnn)) := by
  simp [callRule, h]

/-- A return that completes pops the top slot (R140). -/
theorem retRule_cases (h : retRule s = .ok t) :
    ∃ k : Fin 16, s.sp.val = k.val + 1 ∧ t = (s.setSp k.castSucc).setPc s.stack[k] := by
  obtain h0 | ⟨k, hk⟩ := sp_eq_zero_or_succ s
  · simp [retRule_empty h0] at h
  · rw [retRule_pop hk] at h
    cases h
    exact ⟨k, hk, rfl⟩

/-- A call that completes pushes the advanced PC (R142). -/
theorem callRule_cases (h : callRule nnn s = .ok t) :
    ∃ k : Fin 16, s.sp.val = k.val ∧ t = ((s.setStack k s.pc).setSp k.succ).setPc (address nnn) := by
  obtain h16 | ⟨k, hk⟩ := sp_eq_full_or_slot s
  · simp [callRule_full h16] at h
  · rw [callRule_push hk] at h
    cases h
    exact ⟨k, hk, rfl⟩

/-- A store that completes lies inside memory and changes memory alone (R63). -/
theorem storeBytes_cases {base : Nat} {bs : List Byte} (hbs : bs ≠ []) (h : storeBytes config s base bs = .ok t) :
    base + bs.length ≤ memSize ∧ t = s.setMem (s.mem.writeBytes config base bs) := by
  have hlen : bs.length ≠ 0 := by simpa using hbs
  by_cases hb : base + bs.length ≤ 4096
  · rw [storeBytes_ok hb] at h
    cases h
    exact ⟨hb, rfl⟩
  · rw [storeBytes_error (by omega)] at h
    cases h

theorem regsUpTo_ne_nil (s : State) (x : Reg) : s.regsUpTo x ≠ [] :=
  List.ne_nil_of_length_eq_add_one (regsUpTo_length s x)

/-- A load that completes gives as many bytes as it was asked for (R62). -/
theorem loadBytes_length {base m : Nat} {bs : List Byte} (h : loadBytes config s base m = .ok bs) :
    bs.length = m := by
  unfold loadBytes at h
  split at h
  · cases h
    simp [Memory.readBytes]
  · cases h

/-- A draw that completes changes the display, VF and DIRTY, and VF ends as a flag (R212). -/
theorem drwRule_cases (h : drwRule config x y n s = .ok t) :
    ∃ d f, t = ((s.setDisp d).setV VF (flagByte f)).setDirty true := by
  unfold drwRule at h
  split at h
  · cases h
    exact ⟨_, _, rfl⟩
  · cases h

/-- A register load that completes changes V alone, up to V[X] (R195). -/
theorem ldRegsRule_cases (h : ldRegsRule config x s = .ok t) :
    ∃ v : Vector Byte 16, (∀ r : Reg, x.val < r.val → v[r] = s.v[r]) ∧ t = { s with v := v } := by
  unfold ldRegsRule at h
  split at h
  next bs hbs =>
    cases h
    have hlen := loadBytes_length hbs
    refine ⟨_, fun r hr => ?_, loadRegsFrom_eq s 0 bs⟩
    have hget := loadRegsFrom_getV s 0 bs (by omega) r
    rwa [dif_neg (by omega)] at hget
  next => cases h

/-- The shape SKP and SKNP share: a skip taken by `f` of the named key's level (R225, R226). -/
def keySkip (f : Bool → Bool) (x : Reg) (s : State) : Except Condition State :=
  match keyIndex config (s.getV x) with
  | some k => .ok (s.skipIf (f (s.keyDown k)))
  | none => .error .keyIndexOutOfRange

theorem skpRule_eq_keySkip (x : Reg) (s : State) : skpRule config x s = keySkip id x s := rfl

theorem sknpRule_eq_keySkip (x : Reg) (s : State) : sknpRule config x s = keySkip not x s := rfl

/-- SKP and SKNP that complete are a skip. -/
theorem keySkip_cases {f : Bool → Bool} (h : keySkip f x s = .ok t) : ∃ taken, t = s.skipIf taken := by
  unfold keySkip at h
  split at h
  · cases h
    exact ⟨_, rfl⟩
  · cases h

theorem ldVxKRule_cases (h : ldVxKRule x s = .ok t) : (∃ b, t = s.setV x b) ∨ t = s.setPc (s.pc - 2) := by
  unfold ldVxKRule at h
  split at h
  · cases h
    exact .inl ⟨_, rfl⟩
  · cases h
    exact .inr rfl

end ConditionalRules

/-! ## The equations of a step (R120) -/

section StepEquations
variable {s : State} {w : Word}

theorem step_halted (h : s.fault ≠ none) : step s = .next s := by
  obtain ⟨c, hc⟩ := Option.ne_none_iff_exists'.mp h
  simp [step, hc]

theorem step_fetchFault (hf : s.fault = none) (hp : 0xFFE < s.pc.toNat) :
    step s = .next (s.raise .addressOutOfRange) := by
  simp [step, hf, fetchWord_error hp]

theorem step_decoded {i : Instr} (hf : s.fault = none) (hw : fetchWord config s = .ok w)
    (hd : decodeWord config w = .ok i) : step s = exec i s := by
  simp [step, hf, hw, hd]

theorem step_unsupported {e : DecodeReject} (hf : s.fault = none) (hw : fetchWord config s = .ok w)
    (hd : decodeWord config w = .error e) : step s = .next s.advance := by
  simp [step, hf, hw, hd, execUnsupported]

/-- A step always answers a next state (R120). -/
theorem exists_step_eq_next (s : State) : ∃ t, step s = .next t := by
  by_cases hf : s.fault = none
  · by_cases hp : s.pc.toNat ≤ 0xFFE
    · have hw := fetchWord_ok hp
      cases hd : decodeWord config (wordOfBytes (s.mem.read s.pc.toNat) (s.mem.read (s.pc.toNat + 1))) with
      | ok i =>
        rw [step_decoded hf hw hd, exec_eq_execute]
        exact execute_completes _ s
      | error e => exact ⟨_, step_unsupported hf hw hd⟩
    · exact ⟨_, step_fetchFault hf (Nat.lt_of_not_le hp)⟩
  · exact ⟨_, step_halted hf⟩

end StepEquations

/-! ## The invariant (R40) -/

section Invariant
variable {s t : State}

/-- The invariant reads memory, PC, the stack and SP only. -/
theorem State.Inv.of_same (h : s.Inv) (hmem : t.mem = s.mem) (hpc : t.pc = s.pc) (hstack : t.stack = s.stack)
    (hsp : t.sp = s.sp) : t.Inv := by
  obtain ⟨hm, hp, hl⟩ := h
  exact ⟨hmem ▸ hm, hpc ▸ hp, hstack ▸ hsp ▸ hl⟩

theorem State.Inv.setPc (h : s.Inv) {w : Word} (hw : w.toNat ≤ 0x10FE) : (s.setPc w).Inv :=
  { h with pcBound := hw }

theorem State.Inv.setMem (h : s.Inv) {m : Memory} (hm : m.wf = true) : (s.setMem m).Inv :=
  { h with memWf := hm }

theorem State.Inv.storeBytes (h : s.Inv) {base : Nat} {bs : List Byte} (hb : base + bs.length ≤ memSize) :
    (s.setMem (s.mem.writeBytes config base bs)).Inv :=
  h.setMem (Memory.wf_writeBytes h.memWf hb)

theorem State.Inv.raise (h : s.Inv) (c : Condition) : (s.raise c).Inv :=
  h.of_same rfl rfl rfl rfl

/-- Popping the top slot leaves the slots below it live, and PC at a return address (R140). -/
theorem State.Inv.pop (h : s.Inv) {k : Fin 16} (hk : s.sp.val = k.val + 1) :
    ((s.setSp k.castSucc).setPc s.stack[k]).Inv where
  memWf := h.memWf
  pcBound := by
    have := (h.liveSlots k (by omega)).2
    simp only [State.setPc_pc]
    omega
  liveSlots j hj := h.liveSlots j (by simp at hj; omega)

/-- Pushing a PC in the range of the return addresses makes one more slot live (R142). -/
theorem State.Inv.push (h : s.Inv) {k : Fin 16} (hk : s.sp.val = k.val) {w : Word} (hlo : 2 ≤ w.toNat)
    (hhi : w.toNat ≤ 0x1000) : ((s.setStack k w).setSp k.succ).Inv where
  memWf := h.memWf
  pcBound := h.pcBound
  liveSlots j hj := by
    by_cases hjk : j = k
    · subst hjk
      simpa using ⟨hlo, hhi⟩
    · have hne : k.val ≠ j.val := fun e => hjk (Fin.ext e.symm)
      have hlt : j.val < k.val + 1 := by simpa using hj
      simpa [hne] using h.liveSlots j (by omega)

/-- After the baseline advance from a fetch that succeeds PC is at most 0x1000, so a skip and a wait stay in range. -/
theorem State.Inv.skipIf (h : s.Inv) (hpc : s.pc.toNat ≤ 0x1000) (taken : Bool) : (s.skipIf taken).Inv := by
  rw [State.skipIf_eq]
  cases taken
  · exact h.setPc h.pcBound
  · exact h.setPc (by simp [BitVec.toNat_add]; omega)

theorem advance_pc_toNat (hp : s.pc.toNat ≤ 0xFFE) : s.advance.pc.toNat = s.pc.toNat + 2 := by
  simp [BitVec.toNat_add]
  omega

theorem State.Inv.advance (h : s.Inv) (hp : s.pc.toNat ≤ 0xFFE) : s.advance.Inv :=
  h.setPc (by rw [← State.advance_pc, advance_pc_toNat hp]; omega)

/-- Every rule that completes keeps the invariant, from an advanced PC in the range of the return addresses. -/
theorem ruleOf_inv {b : Byte} {i : Instr} (h : s.Inv) (hlo : 2 ≤ s.pc.toNat) (hhi : s.pc.toNat ≤ 0x1000)
    (hr : ruleOf config b i s = .ok t) : t.Inv := by
  cases i with
  | ret =>
    obtain ⟨k, hk, rfl⟩ := retRule_cases hr
    exact h.pop hk
  | call nnn =>
    obtain ⟨k, hk, rfl⟩ := callRule_cases hr
    exact (h.push hk hlo hhi).setPc (by rw [address_toNat]; omega)
  | jp nnn =>
    cases hr
    exact h.setPc (by rw [address_toNat]; omega)
  | jpV0 nnn =>
    cases hr
    exact h.setPc (by rw [offsetTarget_toNat]; omega)
  | seImm | sneImm | seReg | sneReg =>
    cases hr
    exact h.skipIf hhi _
  | skp x =>
    obtain ⟨taken, rfl⟩ := keySkip_cases ((skpRule_eq_keySkip x s).symm.trans hr)
    exact h.skipIf hhi taken
  | sknp x =>
    obtain ⟨taken, rfl⟩ := keySkip_cases ((sknpRule_eq_keySkip x s).symm.trans hr)
    exact h.skipIf hhi taken
  | ldVxK =>
    obtain ⟨k, rfl⟩ | rfl := ldVxKRule_cases hr
    · exact h.of_same rfl rfl rfl rfl
    · exact h.setPc (by rw [BitVec.toNat_sub]; simp; omega)
  | ldB =>
    obtain ⟨hb, rfl⟩ := storeBytes_cases (List.cons_ne_nil _ _) hr
    exact h.storeBytes hb
  | stRegs x =>
    obtain ⟨hb, rfl⟩ := storeBytes_cases (regsUpTo_ne_nil s x) hr
    exact h.storeBytes hb
  | drw =>
    obtain ⟨d, f, rfl⟩ := drwRule_cases hr
    exact h.of_same rfl rfl rfl rfl
  | ldRegs =>
    obtain ⟨v, -, rfl⟩ := ldRegsRule_cases hr
    exact h.of_same rfl rfl rfl rfl
  | _ =>
    cases hr
    exact h.of_same rfl rfl rfl rfl

theorem exec_inv {i : Instr} (h : s.Inv) (hp : s.pc.toNat ≤ 0xFFE) (he : exec i s = .next t) : t.Inv := by
  obtain hr | ⟨c, -, rfl⟩ := exec_cases he
  · have hpc := advance_pc_toNat hp
    exact ruleOf_inv (h.advance hp) (by omega) (by omega) hr
  · exact h.raise c

/-- Settles O42: by the cases of a step, with PC at most 0xFFE wherever a word was fetched. -/
theorem everyStepKeepsTheInvariant : Obligations.EveryStepKeepsTheInvariant := by
  intro s t h hs
  obtain ⟨-, rfl⟩ | ⟨-, -, rfl⟩ | ⟨-, hp, w, i, -, -, he⟩ | ⟨-, hp, w, e, -, -, rfl⟩ := step_cases hs
  · exact h
  · exact h.raise _
  · exact exec_inv h hp he
  · exact h.advance hp

/-- Settles O41: memory is empty, PC is 0x200 and SP is 0. -/
theorem resetMeetsTheInvariant : Obligations.ResetMeetsTheInvariant where
  memWf := rfl
  pcBound := by decide
  liveSlots _ hk := absurd hk (Nat.not_lt_zero _)

theorem loadImage_inv (h : s.Inv) {base limit : Nat} (hl : limit ≤ memSize) (bytes : List Byte) :
    (loadImage base limit bytes s).1.Inv := by
  by_cases hb : base + bytes.length ≤ limit
  · rw [loadImage_fits s hb]
    exact h.storeBytes (by omega)
  · rw [loadImage_too_large s (Nat.lt_of_not_le hb)]
    exact h

theorem tick_inv (h : s.Inv) : (tick s).1.Inv := by
  unfold tick
  split
  · exact h
  · exact h.of_same rfl rfl rfl rfl

/-- Settles O43: a step by O42, a load because it stays inside memory, construct by O41; the others touch nothing that
the invariant reads. -/
theorem everyHostOperationKeepsTheInvariant : Obligations.EveryHostOperationKeepsTheInvariant := by
  intro op s h
  cases op with
  | construct => exact ⟨_, _, rfl, resetMeetsTheInvariant.of_same rfl rfl rfl rfl⟩
  | loadProgram bytes => exact ⟨_, _, rfl, loadImage_inv h (Nat.le_refl _) bytes⟩
  | loadFont bytes => exact ⟨_, _, rfl, loadImage_inv h (by decide) bytes⟩
  | step =>
    obtain ⟨t, ht⟩ := exists_step_eq_next s
    exact ⟨t, .stepped (reportOf config s), by simp only [perform, ht], everyStepKeepsTheInvariant s t h ht⟩
  | tick => exact ⟨_, _, rfl, tick_inv h⟩
  | setKey k pressed => exact ⟨_, _, rfl, h.of_same rfl rfl rfl rfl⟩
  | clearDirty => exact ⟨_, _, rfl, h.of_same rfl rfl rfl rfl⟩
  | readDisplay | readDirty | readFault => exact ⟨_, _, rfl, h⟩

end Invariant

/-! ## What no program can see (R25, R29, R32) -/

section Noninterference
variable {s t : State}

/-- States that agree for programs are one state with another stack, ST and DIRTY. -/
theorem AgreeForPrograms.exists_eq (h : AgreeForPrograms s t) :
    ∃ stack st dirty, t = { s with stack := stack, st := st, dirty := dirty } := by
  obtain ⟨v, i, pc, stack, sp, mem, disp, dirty, keys, dt, st, fault, draws⟩ := t
  obtain ⟨rfl, rfl, rfl, rfl, -, rfl, rfl, rfl, rfl, rfl, rfl⟩ := h
  exact ⟨stack, st, dirty, rfl⟩

/-! ### Reads agree -/

theorem AgreeForPrograms.getV (h : AgreeForPrograms s t) (r : Reg) : t.getV r = s.getV r := by
  simp [State.getV, h.v]

theorem AgreeForPrograms.keyDown (h : AgreeForPrograms s t) (k : Key) : t.keyDown k = s.keyDown k := by
  simp [State.keyDown, h.keys]

theorem AgreeForPrograms.firstKey (h : AgreeForPrograms s t) : t.firstKey = s.firstKey := by
  simp [State.firstKey, h.keyDown]

theorem AgreeForPrograms.loadBytes (h : AgreeForPrograms s t) (n : Nat) :
    loadBytes config t t.base n = loadBytes config s s.base n := by
  unfold Machine.loadBytes State.base
  rw [h.i, h.mem]

theorem AgreeForPrograms.fetchWord (h : AgreeForPrograms s t) : fetchWord config t = fetchWord config s := by
  simp [Machine.fetchWord, h.pc, h.mem]

/-! ### Updates keep the agreement -/

theorem AgreeForPrograms.setV (h : AgreeForPrograms s t) (r : Reg) (b : Byte) :
    AgreeForPrograms (s.setV r b) (t.setV r b) := { h with v := by simp [h.v] }

theorem AgreeForPrograms.setI (h : AgreeForPrograms s t) (w : Word) :
    AgreeForPrograms (s.setI w) (t.setI w) := { h with i := rfl }

theorem AgreeForPrograms.setPc (h : AgreeForPrograms s t) (w : Word) :
    AgreeForPrograms (s.setPc w) (t.setPc w) := { h with pc := rfl }

theorem AgreeForPrograms.setMem (h : AgreeForPrograms s t) (m : Memory) :
    AgreeForPrograms (s.setMem m) (t.setMem m) := { h with mem := rfl }

theorem AgreeForPrograms.setDisp (h : AgreeForPrograms s t) (d : Display) :
    AgreeForPrograms (s.setDisp d) (t.setDisp d) := { h with disp := rfl }

theorem AgreeForPrograms.setDirty (h : AgreeForPrograms s t) (b : Bool) :
    AgreeForPrograms (s.setDirty b) (t.setDirty b) := { h with }

theorem AgreeForPrograms.setDt (h : AgreeForPrograms s t) (b : Byte) :
    AgreeForPrograms (s.setDt b) (t.setDt b) := { h with dt := rfl }

theorem AgreeForPrograms.setSt (h : AgreeForPrograms s t) (b : Byte) :
    AgreeForPrograms (s.setSt b) (t.setSt b) := { h with }

theorem AgreeForPrograms.countDraw (h : AgreeForPrograms s t) :
    AgreeForPrograms s.countDraw t.countDraw := { h with draws := by simp [h.draws] }

theorem AgreeForPrograms.raise (h : AgreeForPrograms s t) (c : Condition) :
    AgreeForPrograms (s.raise c) (t.raise c) := { h with fault := rfl }

theorem AgreeForPrograms.advance (h : AgreeForPrograms s t) : AgreeForPrograms s.advance t.advance :=
  { h with pc := by simp [h.pc] }

theorem AgreeForPrograms.skipIf (h : AgreeForPrograms s t) (taken : Bool) :
    AgreeForPrograms (s.skipIf taken) (t.skipIf taken) := by
  rw [State.skipIf_eq, State.skipIf_eq, h.pc]
  exact h.setPc _

theorem AgreeForPrograms.loadRegsFrom (h : AgreeForPrograms s t) (k : Nat) (bs : List Byte) :
    AgreeForPrograms (s.loadRegsFrom k bs) (t.loadRegsFrom k bs) := by
  induction bs generalizing s t k with
  | nil => exact h
  | cons b bs ih => exact ih (h.setV _ b) (k + 1)

/-- A pop reads a live slot, in which the states agree; the popped slot becomes stale (R25, R140). -/
theorem AgreeForPrograms.pop (h : AgreeForPrograms s t) {k : Fin 16} (hk : s.sp.val = k.val + 1) :
    AgreeForPrograms ((s.setSp k.castSucc).setPc s.stack[k]) ((t.setSp k.castSucc).setPc t.stack[k]) :=
  { h with
    pc := h.liveSlots k (by omega)
    sp := rfl
    liveSlots := fun j hj => h.liveSlots j (by simp at hj; omega) }

/-- A push overwrites the slot it makes live with the same value in both (R25, R142). -/
theorem AgreeForPrograms.push (h : AgreeForPrograms s t) {k : Fin 16} (hk : s.sp.val = k.val) (w : Word) :
    AgreeForPrograms ((s.setStack k w).setSp k.succ) ((t.setStack k w).setSp k.succ) :=
  { h with
    sp := rfl
    liveSlots := fun j hj => by
      by_cases hjk : j = k
      · simp [hjk]
      · have hne : k.val ≠ j.val := fun e => hjk (Fin.ext e.symm)
        have hlt : j.val < k.val + 1 := by simpa using hj
        simpa [hne] using h.liveSlots j (by omega) }

/-! ### Rules -/

/-- Two rule results that no program can tell apart: the same condition, or states that agree. -/
inductive AgreeResults : Except Condition State → Except Condition State → Prop where
  | ok {s t : State} (h : AgreeForPrograms s t) : AgreeResults (.ok s) (.ok t)
  | error (c : Condition) : AgreeResults (.error c) (.error c)

theorem AgreeForPrograms.retRule (h : AgreeForPrograms s t) : AgreeResults (retRule s) (retRule t) := by
  obtain h0 | ⟨k, hk⟩ := sp_eq_zero_or_succ s
  · rw [retRule_empty h0, retRule_empty (h.sp ▸ h0)]
    exact .error _
  · rw [retRule_pop hk, retRule_pop (h.sp ▸ hk)]
    exact .ok (h.pop hk)

theorem AgreeForPrograms.callRule (h : AgreeForPrograms s t) (nnn : Addr12) :
    AgreeResults (callRule nnn s) (callRule nnn t) := by
  obtain h16 | ⟨k, hk⟩ := sp_eq_full_or_slot s
  · rw [callRule_full h16, callRule_full (h.sp ▸ h16)]
    exact .error _
  · rw [callRule_push hk, callRule_push (h.sp ▸ hk), h.pc]
    exact .ok ((h.push hk _).setPc _)

theorem AgreeForPrograms.storeBytes (h : AgreeForPrograms s t) (base : Nat) (bs : List Byte) :
    AgreeResults (storeBytes config s base bs) (storeBytes config t base bs) := by
  unfold Machine.storeBytes
  rw [h.mem]
  split
  · exact .ok (h.setMem _)
  · exact .error _

theorem AgreeForPrograms.drwRule (h : AgreeForPrograms s t) (x y : Reg) (n : Nibble) :
    AgreeResults (drwRule config x y n s) (drwRule config x y n t) := by
  unfold Machine.drwRule
  rw [h.loadBytes, h.getV, h.getV, h.disp]
  cases Machine.loadBytes config s s.base n.toNat with
  | ok sprite => exact .ok (((h.setDisp _).setV VF _).setDirty true)
  | error c => exact .error c

theorem AgreeForPrograms.ldRegsRule (h : AgreeForPrograms s t) (x : Reg) :
    AgreeResults (ldRegsRule config x s) (ldRegsRule config x t) := by
  unfold Machine.ldRegsRule
  rw [h.loadBytes]
  cases Machine.loadBytes config s s.base (x.val + 1) with
  | ok bs => exact .ok (h.loadRegsFrom 0 bs)
  | error c => exact .error c

theorem AgreeForPrograms.keySkip (h : AgreeForPrograms s t) (f : Bool → Bool) (x : Reg) :
    AgreeResults (keySkip f x s) (keySkip f x t) := by
  unfold Machine.keySkip
  rw [h.getV]
  cases keyIndex config (s.getV x) with
  | some k =>
    simp only [h.keyDown]
    exact .ok (h.skipIf _)
  | none => exact .error _

theorem AgreeForPrograms.ldVxKRule (h : AgreeForPrograms s t) (x : Reg) :
    AgreeResults (ldVxKRule x s) (ldVxKRule x t) := by
  unfold Machine.ldVxKRule
  rw [h.firstKey, h.pc]
  cases s.firstKey with
  | some k => exact .ok (h.setV x _)
  | none => exact .ok (h.setPc _)

/-- Every rule gives states that agree, or the same condition, from states that agree. -/
theorem AgreeForPrograms.ruleOf (h : AgreeForPrograms s t) (b : Byte) (i : Instr) :
    AgreeResults (ruleOf config b i s) (ruleOf config b i t) := by
  obtain ⟨stack, st, dirty, rfl⟩ := h.exists_eq
  cases i with
  | cls => exact .ok ((h.setDisp _).setDirty true)
  | ret => exact h.retRule
  | call nnn => exact h.callRule nnn
  | jp | jpV0 => exact .ok (h.setPc _)
  | seImm | sneImm | seReg | sneReg => exact .ok (h.skipIf _)
  | ldImm x | addImm x | ldReg x | orReg x | andReg x | xorReg x | ldVxDt x => exact .ok (h.setV x _)
  | addReg x | sub x | subn x | shr x | shl x => exact .ok ((h.setV x _).setV VF _)
  | rnd x => exact .ok (h.setV x _).countDraw
  | drw x y n => exact h.drwRule x y n
  | skp x => exact h.keySkip id x
  | sknp x => exact h.keySkip not x
  | ldVxK x => exact h.ldVxKRule x
  | ldDtVx => exact .ok (h.setDt _)
  | ldStVx => exact .ok (h.setSt _)
  | ldI | addI | ldF => exact .ok (h.setI _)
  | ldB | stRegs => exact h.storeBytes _ _
  | ldRegs x => exact h.ldRegsRule x

theorem AgreeForPrograms.exec (h : AgreeForPrograms s t) {i : Instr} {s' : State} (he : exec i s = .next s') :
    ∃ t', exec i t = .next t' ∧ AgreeForPrograms s' t' := by
  have hdraw : t.draw = s.draw := congrArg Config.drawByte h.draws
  have hagree := h.advance.ruleOf s.draw i
  rw [exec_eq_execute, hdraw]
  obtain hs | ⟨c, hs, rfl⟩ := exec_cases he
  · rw [hs] at hagree
    generalize ht : Machine.ruleOf config s.draw i t.advance = rt at hagree
    cases hagree with
    | ok h' => exact ⟨_, execute_ok ht, h'⟩
  · rw [hs] at hagree
    generalize ht : Machine.ruleOf config s.draw i t.advance = rt at hagree
    cases hagree
    exact ⟨_, execute_error ht, h.raise c⟩

/-- Settles O44: both states take the same case of a step, since FAULT, PC, memory and the draw count agree. -/
theorem programsCannotSeeStaleSlotsSoundOrDirty : Obligations.ProgramsCannotSeeStaleSlotsSoundOrDirty := by
  intro s t s' h hs
  obtain ⟨hf, rfl⟩ | ⟨hf, hp, rfl⟩ | ⟨hf, -, w, i, hw, hd, he⟩ | ⟨hf, -, w, e, hw, hd, rfl⟩ := step_cases hs
  · exact ⟨t, step_halted (h.fault ▸ hf), h⟩
  · exact ⟨_, step_fetchFault (h.fault ▸ hf) (h.pc ▸ hp), h.raise _⟩
  · rw [step_decoded (h.fault ▸ hf) (h.fetchWord ▸ hw) hd]
    exact h.exec he
  · exact ⟨_, step_unsupported (h.fault ▸ hf) (h.fetchWord ▸ hw) hd, h.advance⟩

end Noninterference

/-! ## The frame of all 34 instructions (R20 to R38) -/

/-- The parts an instruction may change: registers by `writesV`, PC always (R122), FAULT by raising a condition (R264),
every other part by its writers alone. -/
def MayWrite (i : Instr) : Part → Prop
  | .v r => writesV i r = true
  | .i => (∃ n, i = .ldI n) ∨ (∃ x, i = .addI x) ∨ ∃ x, i = .ldF x
  | .stack _ => ∃ n, i = .call n
  | .sp => i = .ret ∨ ∃ n, i = .call n
  | .mem _ => (∃ x, i = .ldB x) ∨ ∃ x, i = .stRegs x
  | .pixel _ _ | .dirty => i = .cls ∨ ∃ x y n, i = .drw x y n
  | .key _ => False
  | .dt => ∃ x, i = .ldDtVx x
  | .st => ∃ x, i = .ldStVx x
  | .draws => ∃ x nn, i = .rnd x nn
  | .pc | .fault => True

section Frame
variable {s t u : State} {i : Instr} {p : Part}

theorem Part.same_trans (h : p.same s t) (h' : p.same t u) : p.same s u := by
  cases p <;> exact Eq.trans h' h

/-- A register write is inside the frame of an instruction that may write the register. -/
theorem same_setV {x : Reg} (b : Byte) (hx : writesV i x = true) (hp : ¬ MayWrite i p) : p.same s (s.setV x b) :=
  changesOnly_setV s x b p fun e => hp (List.mem_singleton.mp e ▸ hx)

/-- A change of PC is inside the frame of every instruction. -/
theorem same_setPc (w : Word) (hp : ¬ MayWrite i p) : p.same s (s.setPc w) := by
  cases p with
  | pc => exact absurd trivial hp
  | _ => rfl

theorem same_skipIf (taken : Bool) (hp : ¬ MayWrite i p) : p.same s (s.skipIf taken) :=
  State.skipIf_eq s taken ▸ same_setPc _ hp

/-- A store is inside the frame of an instruction that may write memory. -/
theorem same_storeBytes (base : Nat) (bs : List Byte) (hi : ∀ a, MayWrite i (.mem a)) (hp : ¬ MayWrite i p) :
    p.same s (s.setMem (s.mem.writeBytes config base bs)) := by
  cases p with
  | mem a => exact absurd (hi a) hp
  | _ => rfl

/-- A change of I is inside the frame of an instruction that may write I. -/
theorem same_setI (w : Word) (hi : MayWrite i .i) (hp : ¬ MayWrite i p) : p.same s (s.setI w) := by
  cases p with
  | i => exact absurd hi hp
  | _ => rfl

/-- A rule that completes changes only what its instruction may write. -/
theorem ruleOf_same {b : Byte} (hr : ruleOf config b i s = .ok t) (hp : ¬ MayWrite i p) : p.same s t := by
  cases i with
  | ldImm | addImm | ldReg | orReg | andReg | xorReg | ldVxDt =>
    cases hr
    exact same_setV _ (by simp [writesV]) hp
  | addReg | sub | subn | shr | shl =>
    cases hr
    exact Part.same_trans (same_setV _ (by simp [writesV]) hp) (same_setV _ (by simp [writesV]) hp)
  | jp | jpV0 =>
    cases hr
    exact same_setPc _ hp
  | seImm | sneImm | seReg | sneReg =>
    cases hr
    exact same_skipIf _ hp
  | skp x =>
    obtain ⟨taken, rfl⟩ := keySkip_cases ((skpRule_eq_keySkip x s).symm.trans hr)
    exact same_skipIf taken hp
  | sknp x =>
    obtain ⟨taken, rfl⟩ := keySkip_cases ((sknpRule_eq_keySkip x s).symm.trans hr)
    exact same_skipIf taken hp
  | ldVxK =>
    obtain ⟨k, rfl⟩ | rfl := ldVxKRule_cases hr
    · exact same_setV k (by simp [writesV]) hp
    · exact same_setPc _ hp
  | ldI | addI | ldF =>
    cases hr
    exact same_setI _ (by simp [MayWrite]) hp
  | ldB =>
    obtain ⟨-, rfl⟩ := storeBytes_cases (List.cons_ne_nil _ _) hr
    exact same_storeBytes _ _ (by simp [MayWrite]) hp
  | stRegs x =>
    obtain ⟨-, rfl⟩ := storeBytes_cases (regsUpTo_ne_nil s x) hr
    exact same_storeBytes _ _ (by simp [MayWrite]) hp
  | ldRegs x =>
    obtain ⟨v, hv, rfl⟩ := ldRegsRule_cases hr
    cases p with
    | v r => exact hv r (by simpa [MayWrite, writesV] using hp)
    | _ => rfl
  | rnd x nn =>
    cases hr
    refine Part.same_trans (same_setV (x := x) (b &&& nn) (by simp [writesV]) hp) ?_
    cases p with
    | draws => exact absurd ⟨_, _, rfl⟩ hp
    | _ => rfl
  | ret =>
    obtain ⟨k, -, rfl⟩ := retRule_cases hr
    refine Part.same_trans ?_ (same_setPc _ hp)
    cases p with
    | sp => exact absurd (.inl rfl) hp
    | _ => rfl
  | call nnn =>
    obtain ⟨k, -, rfl⟩ := callRule_cases hr
    refine Part.same_trans ?_ (same_setPc _ hp)
    cases p with
    | sp => exact absurd (.inr ⟨nnn, rfl⟩) hp
    | stack j => exact absurd ⟨nnn, rfl⟩ hp
    | _ => rfl
  | cls =>
    cases hr
    cases p with
    | pixel | dirty => exact absurd (.inl rfl) hp
    | _ => rfl
  | drw x y n =>
    obtain ⟨d, f, rfl⟩ := drwRule_cases hr
    cases p with
    | v r => exact same_setV (flagByte f) (by simp [writesV]) hp
    | pixel | dirty => exact absurd (.inr ⟨x, y, n, rfl⟩) hp
    | _ => rfl
  | ldDtVx x =>
    cases hr
    cases p with
    | dt => exact absurd ⟨x, rfl⟩ hp
    | _ => rfl
  | ldStVx x =>
    cases hr
    cases p with
    | st => exact absurd ⟨x, rfl⟩ hp
    | _ => rfl

/-- The frame of exec: an instruction changes only what it may write, also where it raises a condition. -/
theorem exec_same (he : exec i s = .next t) (hp : ¬ MayWrite i p) : p.same s t := by
  obtain hr | ⟨c, -, rfl⟩ := exec_cases he
  · exact Part.same_trans (same_setPc _ hp) (ruleOf_same hr hp)
  · cases p with
    | fault => exact absurd trivial hp
    | _ => rfl

/-! ### The flag (R22) -/

theorem flagByte_zero_or_one (f : Bool) : flagByte f = 0 ∨ flagByte f = 1 := by
  cases f
  · exact .inl rfl
  · exact .inr rfl

/-- A state whose last register write was a flag to VF. -/
theorem getV_VF_setV_flag (s : State) (f : Bool) :
    (s.setV VF (flagByte f)).getV VF = 0 ∨ (s.setV VF (flagByte f)).getV VF = 1 := by
  rw [State.setV_getV_self]
  exact flagByte_zero_or_one f

/-- A draw whose sprite lies inside memory completes (R212, R261). -/
theorem exists_drwRule_eq_ok {x y : Reg} {n : Nibble} (h : raisedBy (.drw x y n) s = none) :
    ∃ t, drwRule config x y n s.advance = .ok t := by
  have hn : n.toNat = 0 ∨ s.advance.base + n.toNat ≤ 4096 := by
    simp only [raisedBy, ite_eq_right_iff, reduceCtorEq, imp_false, not_and] at h
    simp only [State.base, State.advance_i]
    omega
  exact ⟨_, by unfold drwRule; rw [loadBytes_ok hn]⟩

theorem exec_drw_flag {x y : Reg} {n : Nibble} (h : raisedBy (.drw x y n) s = none)
    (he : exec (.drw x y n) s = .next t) : t.getV VF = 0 ∨ t.getV VF = 1 := by
  obtain ⟨u, hu⟩ := exists_drwRule_eq_ok h
  obtain ⟨d, f, rfl⟩ := drwRule_cases hu
  have heq := execute_ok hu
  rw [exec_eq_execute] at he
  cases heq.symm.trans he
  exact getV_VF_setV_flag _ f

/-- Settles O39: the frame of exec on registers, and the flag byte that each of the six writes last. -/
theorem onlySixInstructionsWriteTheFlag : Obligations.OnlySixInstructionsWriteTheFlag := by
  intro i s t he
  refine ⟨fun r hr => exec_same (p := .v r) he (by simp [MayWrite, hr]), ?_⟩
  rintro ⟨x, y, rfl | rfl | rfl | rfl | rfl | ⟨n, rfl, hn⟩⟩
  case inr.inr.inr.inr.inr => exact exec_drw_flag hn he
  all_goals
    cases he
    exact getV_VF_setV_flag _ _

/-! ### The writers of each part -/

/-- CLS and DRW set DIRTY where they complete, and nothing else writes it (R29). -/
theorem exec_dirty_of_dirty (he : exec i s = .next t) (hs : s.dirty = true) : t.dirty = true := by
  by_cases hw : MayWrite i .dirty
  · obtain hr | ⟨c, -, rfl⟩ := exec_cases he
    · obtain rfl | ⟨x, y, n, rfl⟩ := hw
      · cases hr
        rfl
      · obtain ⟨d, f, rfl⟩ := drwRule_cases hr
        rfl
    · exact hs
  · exact (exec_same (p := .dirty) he hw).trans hs

/-- Settles O40: each clause is the frame of exec at one part, but for the clause that DIRTY is never cleared. -/
theorem eachPartHasOnlyItsWriters : Obligations.EachPartHasOnlyItsWriters := by
  intro i s t he
  exact ⟨
    fun hB hR a => exec_same (p := .mem a) he (by simp [MayWrite, hB, hR]),
    fun hL hA hF => exec_same (p := .i) he (by simp [MayWrite, hL, hA, hF]),
    fun hC => ⟨fun k => exec_same (p := .stack k) he (by simp [MayWrite, hC]),
      fun hR => exec_same (p := .sp) he (by simp [MayWrite, hC, hR])⟩,
    fun hC hD => ⟨fun x y => exec_same (p := .pixel x y) he (by simp [MayWrite, hC, hD]),
      exec_same (p := .dirty) he (by simp [MayWrite, hC, hD])⟩,
    exec_dirty_of_dirty he,
    fun k => exec_same (p := .key k) he id,
    fun hD => exec_same (p := .dt) he (by simp [MayWrite, hD]),
    fun hS => exec_same (p := .st) he (by simp [MayWrite, hS])⟩

end Frame

end Sys2Proof.Machine

/-! # Proofs: memory (20_memory.md)

The instructions that access memory at I, one equation per outcome (R193 to R195, R212, R261); the fetch after a
store (R76). -/

namespace Sys2Proof.Machine

/-! ## The accesses at I, one equation per outcome -/

section Accesses
variable {s : State} {x y : Reg} {n : Nibble}

/-- The baseline advance does not move the base of a data access (R196). -/
@[simp] theorem State.advance_base (s : State) : s.advance.base = s.i.toNat := rfl

/-- A condition raised by the rule discards all its writes (R125, R264). -/
theorem exec_fault {i : Instr} {c : Condition} (h : ruleOf config s.draw i s.advance = .error c) :
    exec i s = .next { s with fault := some c } := by
  rw [exec_eq_execute]
  exact execute_error h

theorem exec_ldB_ok (h : s.i.toNat + 2 ≤ 0xFFF) :
    exec (.ldB x) s = .next (s.advance.setMem (s.mem.writeBytes config s.i.toNat (bcdDigits (s.getV x)))) := by
  rw [exec_eq_execute]
  have hb : s.i.toNat + (bcdDigits (s.getV x)).length ≤ 4096 := by rw [bcdDigits_length]; omega
  exact execute_ok (storeBytes_ok hb)

theorem exec_ldB_fault (h : 0xFFF < s.i.toNat + 2) :
    exec (.ldB x) s = .next { s with fault := some .addressOutOfRange } :=
  exec_fault (storeBytes_error (by rw [bcdDigits_length, State.advance_base]; omega))

theorem exec_stRegs_ok (h : s.i.toNat + x.val ≤ 0xFFF) :
    exec (.stRegs x) s = .next (s.advance.setMem (s.mem.writeBytes config s.i.toNat (s.regsUpTo x))) := by
  rw [exec_eq_execute]
  have hb : s.i.toNat + (s.regsUpTo x).length ≤ 4096 := by rw [regsUpTo_length]; omega
  exact execute_ok (storeBytes_ok hb)

theorem exec_stRegs_fault (h : 0xFFF < s.i.toNat + x.val) :
    exec (.stRegs x) s = .next { s with fault := some .addressOutOfRange } :=
  exec_fault (storeBytes_error (by rw [regsUpTo_length, State.advance_base]; omega))

/-- The bytes a register load reads, V0's first (R195). -/
def loadedBytes (s : State) (x : Reg) : List Byte :=
  (List.range (x.val + 1)).map fun k => s.mem.read (s.i.toNat + k)

@[simp] theorem loadedBytes_length (s : State) (x : Reg) : (loadedBytes s x).length = x.val + 1 := by
  simp [loadedBytes]

theorem exec_ldRegs_ok (h : s.i.toNat + x.val ≤ 0xFFF) :
    exec (.ldRegs x) s = .next (s.advance.loadRegsFrom 0 (loadedBytes s x)) := by
  rw [exec_eq_execute]
  have hload : loadBytes config s.advance s.advance.base (x.val + 1) = .ok (loadedBytes s x) :=
    loadBytes_ok (.inr (by rw [State.advance_base]; omega))
  exact execute_ok (by simp only [ruleOf, ldRegsRule, hload])

/-- A read at I of at least one byte whose last byte is above 0xFFF (R70). -/
theorem loadBytes_base_error {m : Nat} (hm : 0 < m) (h : 0xFFF < s.i.toNat + m - 1) :
    loadBytes config s.advance s.advance.base m = .error .addressOutOfRange :=
  loadBytes_error (by rw [State.advance_base]; omega)

theorem exec_ldRegs_fault (h : 0xFFF < s.i.toNat + x.val) :
    exec (.ldRegs x) s = .next { s with fault := some .addressOutOfRange } :=
  exec_fault (by simp only [ruleOf, ldRegsRule, loadBytes_base_error (Nat.succ_pos x.val) h])

theorem exec_drw_fault (hn : 0 < n.toNat) (h : 0xFFF < s.i.toNat + n.toNat - 1) :
    exec (.drw x y n) s = .next { s with fault := some .addressOutOfRange } :=
  exec_fault (by simp only [ruleOf, drwRule, loadBytes_base_error hn h])

/-- Settles O27: the fault equation of each of the four accesses. -/
theorem accessesLeavingMemoryFault : Obligations.AccessesLeavingMemoryFault :=
  ⟨fun _ _ h => exec_ldB_fault h, fun _ _ h => ⟨exec_stRegs_fault h, exec_ldRegs_fault h⟩,
    fun _ _ _ _ hn h => exec_drw_fault hn h⟩

end Accesses

/-! ## A dump and the load that follows it (R65) -/

section RoundTrip
variable {s : State} {x k : Reg}

theorem getElem_regsUpTo (hk : k.val < (s.regsUpTo x).length) : (s.regsUpTo x)[k.val] = s.getV k := by
  simp only [regsUpTo_eq_ofFn, List.getElem_ofFn]

/-- The dumped value of V[k] is at I + k (R194). -/
theorem read_dump (s : State) (hk : k.val ≤ x.val) :
    (s.mem.writeBytes config s.i.toNat (s.regsUpTo x)).read (s.i.toNat + k.val) = s.getV k := by
  have hlen := regsUpTo_length s x
  rw [Memory.read_writeBytes, dif_pos (by omega)]
  simp only [Nat.add_sub_cancel_left]
  exact getElem_regsUpTo (by omega)

/-- V[k] is loaded from I + k (R195). -/
theorem getV_load (s : State) (hk : k.val ≤ x.val) :
    (s.advance.loadRegsFrom 0 (loadedBytes s x)).getV k = s.mem.read (s.i.toNat + k.val) := by
  have hlen := loadedBytes_length s x
  rw [loadRegsFrom_getV _ _ _ (by omega), dif_pos (by omega)]
  simp [loadedBytes]

theorem loadRegsFrom_i (s : State) (m : Nat) (bs : List Byte) : (s.loadRegsFrom m bs).i = s.i := by
  rw [loadRegsFrom_eq]

/-- Settles O28: the load reads V[k] from I + k, where the dump put it; neither moves I. -/
theorem loadAfterDumpRestoresRegisters : Obligations.LoadAfterDumpRestoresRegisters := by
  intro x s h
  refine ⟨_, exec_stRegs_ok h, fun v => ⟨_, exec_ldRegs_ok h, fun k hk => ?_, loadRegsFrom_i _ _ _⟩⟩
  exact (getV_load _ hk).trans (read_dump s hk)

end RoundTrip

/-! ## The fetch after a store (R76) -/

section FetchAfterStore
variable {s : State}

/-- The two bytes after the instruction as the store left them, the lower address high (R64). -/
theorem fetchWord_after_store (hpc : s.pc.toNat + 3 ≤ 0xFFF) (base : Nat) (bs : List Byte) :
    fetchWord config (s.advance.setMem (s.mem.writeBytes config base bs)) =
      .ok (wordOfBytes (byteAfterStore s base bs (s.pc.toNat + 2)) (byteAfterStore s base bs (s.pc.toNat + 3))) := by
  have hadv : s.advance.pc.toNat = s.pc.toNat + 2 := advance_pc_toNat (by omega)
  rw [fetchWord_ok (by rw [State.setMem_pc, hadv]; omega)]
  simp only [State.setMem_pc, State.setMem_mem, hadv, read_writeBytes_eq_byteAfterStore]

/-- A word so stored that decodes runs in the next step. -/
theorem step_after_store (hf : s.fault = none) (hpc : s.pc.toNat + 3 ≤ 0xFFF) {base : Nat} {bs : List Byte} {j : Instr}
    (hd : decodeWord config (wordOfBytes (byteAfterStore s base bs (s.pc.toNat + 2))
      (byteAfterStore s base bs (s.pc.toNat + 3))) = .ok j) :
    step (s.advance.setMem (s.mem.writeBytes config base bs)) =
      exec j (s.advance.setMem (s.mem.writeBytes config base bs)) :=
  step_decoded hf (fetchWord_after_store hpc base bs) hd

/-- Settles O29: each instruction is a store from I up, and both facts hold after any store. -/
theorem storeIsSeenByTheNextFetch : Obligations.StoreIsSeenByTheNextFetch := by
  intro x s hf hpc
  refine ⟨fun hx => ⟨_, exec_stRegs_ok hx, ?_⟩, fun hx => ⟨_, exec_ldB_ok hx, ?_⟩⟩
  · rw [← regsUpTo_eq_ofFn]
    exact ⟨fetchWord_after_store hpc _ _, fun _ hd => step_after_store hf hpc hd⟩
  · exact ⟨fetchWord_after_store hpc _ (bcdDigits (s.getV x)), fun _ hd => step_after_store hf hpc hd⟩

end FetchAfterStore

end Sys2Proof.Machine

/-! # Proofs: instruction encoding (30_encoding.md)

A word in each format is told by its fields (R92, R93). From that: what a word that decodes is (R97), which words are
refused (R99), and which rows of the opcode table a word meets (R98). -/

namespace Sys2Proof.Machine

/-! ## A word is told by its fields -/

section Fields
variable {w : Word} {op n : Nibble} {x y : Reg} {nn : Byte} {nnn : Addr12}

theorem fieldsOf_op_eq_iff : (fieldsOf w).op = op ↔ w.toNat / 4096 = op.toNat := by
  rw [← BitVec.toNat_inj, fieldsOf_op_toNat]

theorem fieldsOf_x_eq_iff : (fieldsOf w).x = x ↔ w.toNat / 256 % 16 = x.val := by
  rw [Fin.ext_iff, fieldsOf_x_val]

theorem fieldsOf_y_eq_iff : (fieldsOf w).y = y ↔ w.toNat / 16 % 16 = y.val := by
  rw [Fin.ext_iff, fieldsOf_y_val]

theorem fieldsOf_n_eq_iff : (fieldsOf w).n = n ↔ w.toNat % 16 = n.toNat := by
  rw [← BitVec.toNat_inj, fieldsOf_n_toNat]

theorem fieldsOf_nn_eq_iff : (fieldsOf w).nn = nn ↔ w.toNat % 256 = nn.toNat := by
  rw [← BitVec.toNat_inj, fieldsOf_nn_toNat]

theorem fieldsOf_nnn_eq_iff : (fieldsOf w).nnn = nnn ↔ w.toNat % 4096 = nnn.toNat := by
  rw [← BitVec.toNat_inj, fieldsOf_nnn_toNat]

theorem eq_encA_iff : w = encA op nnn ↔ (fieldsOf w).op = op ∧ (fieldsOf w).nnn = nnn := by
  rw [fieldsOf_op_eq_iff, fieldsOf_nnn_eq_iff, ← BitVec.toNat_inj, encA_toNat]
  omega

theorem eq_encRI_iff :
    w = encRI op x nn ↔ (fieldsOf w).op = op ∧ (fieldsOf w).x = x ∧ (fieldsOf w).nn = nn := by
  rw [fieldsOf_op_eq_iff, fieldsOf_x_eq_iff, fieldsOf_nn_eq_iff, ← BitVec.toNat_inj, encRI_toNat]
  omega

theorem eq_encRR_iff : w = encRR op x y n ↔
    (fieldsOf w).op = op ∧ (fieldsOf w).x = x ∧ (fieldsOf w).y = y ∧ (fieldsOf w).n = n := by
  rw [fieldsOf_op_eq_iff, fieldsOf_x_eq_iff, fieldsOf_y_eq_iff, fieldsOf_n_eq_iff, ← BitVec.toNat_inj, encRR_toNat]
  omega

/-- A word but for its X field (R97 (a)). -/
theorem clear_x_eq_encRI_iff :
    w &&& ~~~0x0F00#16 = encRI op 0 nn ↔ (fieldsOf w).op = op ∧ (fieldsOf w).nn = nn := by
  rw [fieldsOf_op_eq_iff, fieldsOf_nn_eq_iff, ← BitVec.toNat_inj, encRI_toNat, show ~~~0x0F00#16 = 0xF0FF#16 from rfl,
    and_F0FF_toNat, Fin.val_zero]
  omega

theorem and_FFF0_toNat (w : Word) : (w &&& 0xFFF0#16).toNat = w.toNat / 16 * 16 := by
  have hdiv : (w.toNat &&& 0xFFF0) / 2 ^ 4 = w.toNat / 16 := by
    rw [Nat.and_div_two_pow, show 0xFFF0 / 2 ^ 4 = 2 ^ 12 - 1 by omega, Nat.and_two_pow_sub_one_eq_mod]
    omega
  have hmod : (w.toNat &&& 0xFFF0) % 2 ^ 4 = 0 := by
    rw [Nat.and_mod_two_pow]
    exact Nat.and_zero _
  rw [BitVec.toNat_and, show (0xFFF0#16).toNat = 0xFFF0 from rfl]
  omega

/-- A word but for its N field (R97 (b)). -/
theorem clear_n_eq_encRR_iff : w &&& ~~~0x000F#16 = encRR op x y 0 ↔
    (fieldsOf w).op = op ∧ (fieldsOf w).x = x ∧ (fieldsOf w).y = y := by
  rw [fieldsOf_op_eq_iff, fieldsOf_x_eq_iff, fieldsOf_y_eq_iff, ← BitVec.toNat_inj, encRR_toNat,
    show ~~~0x000F#16 = 0xFFF0#16 from rfl, and_FFF0_toNat, show (0 : Nibble).toNat = 0 from rfl]
  omega

theorem clear_dontCareBits_eq_iff {i : Instr} (hd : dontCareBits i = 0) :
    w &&& ~~~dontCareBits i = encode i ↔ w = encode i := by
  rw [hd, show ~~~(0 : Word) = BitVec.allOnes 16 from rfl, BitVec.and_allOnes]

end Fields

/-! ## Decoding an encoding (R98) -/

section DecodeEncode
variable (c : Config) (w : Word) (i : Instr)

@[simp] theorem accept_config (canonical : Bool) : accept config w canonical i = .ok i := rfl

@[simp] theorem accept_true : accept c w true i = .ok i := by
  unfold accept
  split <;> rfl

/-- Each format gives its fields back, and the dispatch on them selects the instruction again; only a shift with Y other
than 0 is no canonical encoding (R97). -/
theorem decodeWord_encode : decodeWord c (encode i) = accept c (encode i) i.wellFormed i := by
  cases i with
  | cls | ret => rfl
  | jp | call | ldI | jpV0 | seImm | sneImm | ldImm | addImm | rnd | seReg | sneReg | drw =>
    simp [decodeWord, decodeFields, encode, Instr.wellFormed]
  | ldReg | orReg | andReg | xorReg | addReg | sub | shr | subn | shl =>
    simp [decodeWord, decodeFields, decodeGroup8, encode, Instr.wellFormed]
  | skp | sknp => simp [decodeWord, decodeFields, decodeGroupE, encode, Instr.wellFormed]
  | ldVxDt | ldVxK | ldDtVx | ldStVx | addI | ldF | ldB | stRegs | ldRegs =>
    simp [decodeWord, decodeFields, decodeGroupF, encode, Instr.wellFormed]

end DecodeEncode

/-- Settles O47: the two bytes make the encoding again, and it decodes to the instruction. -/
theorem decodingAnEncodedInstructionGivesItBack : Obligations.DecodingAnEncodedInstructionGivesItBack := by
  intro i
  simp only [decodeBytes, encodeBytes, wordOfBytes_high_low, decodeWord_encode, accept_config]

/-! ## What a word that decodes is (R97) -/

/-- The word is the encoding of `i` but for the don't-care bits, and the canonical one where the configuration accepts
no other (R97, U9). -/
structure EncodesUpToDontCare (c : Config) (w : Word) (i : Instr) : Prop where
  cleared : w &&& ~~~dontCareBits i = encode i
  canonical : c.nonCanonical = .unsupported → i.wellFormed = true ∧ w = encode i

section DecodeOk
variable {c : Config} {w : Word} {i j : Instr}

theorem EncodesUpToDontCare.of_eq_encode (hd : dontCareBits i = 0) (hi : i.wellFormed = true) (h : w = encode i) :
    EncodesUpToDontCare c w i :=
  ⟨(clear_dontCareBits_eq_iff hd).mpr h, fun _ => ⟨hi, h⟩⟩

theorem accept_ok {canonical : Bool} (h : accept c w canonical j = .ok i) :
    i = j ∧ (c.nonCanonical = .unsupported → canonical = true) := by
  unfold accept at h
  split at h
  next hc =>
    cases h
    exact ⟨rfl, fun e => by simp [hc] at e⟩
  next =>
    split at h
    next hb =>
      cases h
      exact ⟨rfl, fun _ => hb⟩
    next => cases h

theorem decodeGroup0_ok (hop : (fieldsOf w).op = 0x0#4) (h : decodeGroup0 c w (fieldsOf w) = .ok i) :
    EncodesUpToDontCare c w i := by
  unfold decodeGroup0 at h
  split at h
  case h_3 => cases h
  all_goals
    next hnn =>
    obtain ⟨rfl, hx⟩ := accept_ok h
    exact ⟨clear_x_eq_encRI_iff.mpr ⟨hop, hnn⟩,
      fun hc => ⟨rfl, eq_encRI_iff.mpr ⟨hop, of_decide_eq_true (hx hc), hnn⟩⟩⟩

theorem decodeGroup8_ok (hop : (fieldsOf w).op = 0x8#4) (h : decodeGroup8 c w (fieldsOf w) = .ok i) :
    EncodesUpToDontCare c w i := by
  unfold decodeGroup8 at h
  split at h
  case h_7 hn | h_9 hn =>
    obtain ⟨rfl, hy⟩ := accept_ok h
    have hw := eq_encRR_iff.mpr ⟨hop, rfl, rfl, hn⟩
    exact ⟨(clear_dontCareBits_eq_iff rfl).mpr hw, fun hc => ⟨hy hc, hw⟩⟩
  case h_10 => cases h
  all_goals
    next hn =>
    cases h
    exact .of_eq_encode rfl rfl (eq_encRR_iff.mpr ⟨hop, rfl, rfl, hn⟩)

theorem decodeGroupE_ok (hop : (fieldsOf w).op = 0xE#4) (h : decodeGroupE w (fieldsOf w) = .ok i) :
    EncodesUpToDontCare c w i := by
  unfold decodeGroupE at h
  split at h
  case h_3 => cases h
  all_goals
    next hnn =>
    cases h
    exact .of_eq_encode rfl rfl (eq_encRI_iff.mpr ⟨hop, rfl, hnn⟩)

theorem decodeGroupF_ok (hop : (fieldsOf w).op = 0xF#4) (h : decodeGroupF w (fieldsOf w) = .ok i) :
    EncodesUpToDontCare c w i := by
  unfold decodeGroupF at h
  split at h
  case h_10 => cases h
  all_goals
    next hnn =>
    cases h
    exact .of_eq_encode rfl rfl (eq_encRI_iff.mpr ⟨hop, rfl, hnn⟩)

/-- Everything an accepted word can be: the cases are the groups of the dispatch by their format (R93, R95). -/
theorem decodeWord_ok (h : decodeWord c w = .ok i) : EncodesUpToDontCare c w i := by
  unfold decodeWord decodeFields at h
  split at h
  case h_1 hop => exact decodeGroup0_ok hop h
  case h_2 hop | h_3 hop | h_11 hop | h_12 hop =>
    cases h
    exact .of_eq_encode rfl rfl (eq_encA_iff.mpr ⟨hop, rfl⟩)
  case h_4 hop | h_5 hop | h_7 hop | h_8 hop | h_13 hop =>
    cases h
    exact .of_eq_encode rfl rfl (eq_encRI_iff.mpr ⟨hop, rfl, rfl⟩)
  case h_6 hop | h_10 hop =>
    obtain ⟨rfl, hn⟩ := accept_ok h
    exact ⟨clear_n_eq_encRR_iff.mpr ⟨hop, rfl, rfl⟩,
      fun hc => ⟨rfl, eq_encRR_iff.mpr ⟨hop, rfl, rfl, of_decide_eq_true (hn hc)⟩⟩⟩
  case h_9 hop => exact decodeGroup8_ok hop h
  case h_14 hop =>
    cases h
    exact .of_eq_encode rfl rfl (eq_encRR_iff.mpr ⟨hop, rfl, rfl, rfl⟩)
  case h_15 hop => exact decodeGroupE_ok hop h
  case h_16 =>
    have hop : (fieldsOf w).op = 0xF#4 := by
      simp only [fieldsOf_op_eq_iff, BitVec.reduceToNat, imp_false] at *
      omega
    exact decodeGroupF_ok hop h

/-- Settles O50: an accepted word is canonical, and a canonical encoding decodes. -/
theorem strictDecoderAcceptsExactlyCanonicalWords : Obligations.StrictDecoderAcceptsExactlyCanonicalWords := by
  intro w i
  constructor
  · intro h
    exact (decodeWord_ok h).canonical rfl
  · rintro ⟨hi, rfl⟩
    rw [decodeWord_encode, hi, accept_true]

/-- The bits cleared are in no field the dispatch or the operands use (R97). -/
theorem decodeWord_of_cleared (h : w &&& ~~~dontCareBits i = encode i) : decodeWord config w = .ok i := by
  cases i with
  | cls =>
    obtain ⟨hop, hnn⟩ := (clear_x_eq_encRI_iff (op := 0x0) (nn := 0xE0)).mp h
    simp [decodeWord, decodeFields, decodeGroup0, hop, hnn]
  | ret =>
    obtain ⟨hop, hnn⟩ := (clear_x_eq_encRI_iff (op := 0x0) (nn := 0xEE)).mp h
    simp [decodeWord, decodeFields, decodeGroup0, hop, hnn]
  | seReg x y | sneReg x y =>
    obtain ⟨hop, rfl, rfl⟩ := clear_n_eq_encRR_iff.mp h
    simp [decodeWord, decodeFields, hop]
  | _ =>
    obtain rfl := (clear_dontCareBits_eq_iff rfl).mp h
    rw [decodeWord_encode, accept_config]

/-- Settles O49: the cases of an accepted word, and their converse. -/
theorem decodingIgnoresOnlyDontCareBits : Obligations.DecodingIgnoresOnlyDontCareBits :=
  fun _ _ => ⟨fun h => (decodeWord_ok h).cleared, decodeWord_of_cleared⟩

end DecodeOk

/-! ## The refused words (R99) -/

section DecodeError
variable {w : Word} {f : Fields} {e : DecodeReject}

theorem unsupportedWord_iff_fields : unsupportedWord w ↔
    (fieldsOf w).op = 0x0 ∧ (fieldsOf w).nn ≠ 0xE0 ∧ (fieldsOf w).nn ≠ 0xEE ∨
    (fieldsOf w).op = 0x8 ∧ ((fieldsOf w).n = 0x8 ∨ (fieldsOf w).n = 0x9 ∨ (fieldsOf w).n = 0xA ∨ (fieldsOf w).n = 0xB ∨
      (fieldsOf w).n = 0xC ∨ (fieldsOf w).n = 0xD ∨ (fieldsOf w).n = 0xF) ∨
    (fieldsOf w).op = 0xE ∧ (fieldsOf w).nn ≠ 0x9E ∧ (fieldsOf w).nn ≠ 0xA1 ∨
    (fieldsOf w).op = 0xF ∧ (fieldsOf w).nn ≠ 0x07 ∧ (fieldsOf w).nn ≠ 0x0A ∧ (fieldsOf w).nn ≠ 0x15 ∧
      (fieldsOf w).nn ≠ 0x18 ∧ (fieldsOf w).nn ≠ 0x1E ∧ (fieldsOf w).nn ≠ 0x29 ∧ (fieldsOf w).nn ≠ 0x33 ∧
      (fieldsOf w).nn ≠ 0x55 ∧ (fieldsOf w).nn ≠ 0x65 := by
  simp only [ne_eq, fieldsOf_op_eq_iff, fieldsOf_n_eq_iff, fieldsOf_nn_eq_iff]
  exact Iff.rfl

theorem decodeGroup0_error_iff : decodeGroup0 config w f = .error e ↔
    e = .unsupported w ∧ f.nn ≠ 0xE0 ∧ f.nn ≠ 0xEE := by
  unfold decodeGroup0
  split <;> simp_all [eq_comm]

theorem decodeGroup8_error_iff : decodeGroup8 config w f = .error e ↔
    e = .unsupported w ∧ (f.n = 0x8 ∨ f.n = 0x9 ∨ f.n = 0xA ∨ f.n = 0xB ∨ f.n = 0xC ∨ f.n = 0xD ∨ f.n = 0xF) := by
  unfold decodeGroup8
  split
  case h_10 =>
    have hn : f.n = 0x8 ∨ f.n = 0x9 ∨ f.n = 0xA ∨ f.n = 0xB ∨ f.n = 0xC ∨ f.n = 0xD ∨ f.n = 0xF := by
      simp only [← BitVec.toNat_inj, BitVec.reduceToNat, BitVec.ofNat_eq_ofNat, imp_false] at *
      omega
    exact ⟨fun h => ⟨(Except.error.inj h).symm, hn⟩, fun h => h.1 ▸ rfl⟩
  all_goals
    next hn => simp [hn]

theorem decodeGroupE_error_iff : decodeGroupE w f = .error e ↔
    e = .unsupported w ∧ f.nn ≠ 0x9E ∧ f.nn ≠ 0xA1 := by
  unfold decodeGroupE
  split <;> simp_all [eq_comm]

theorem decodeGroupF_error_iff : decodeGroupF w f = .error e ↔
    e = .unsupported w ∧ f.nn ≠ 0x07 ∧ f.nn ≠ 0x0A ∧ f.nn ≠ 0x15 ∧ f.nn ≠ 0x18 ∧ f.nn ≠ 0x1E ∧ f.nn ≠ 0x29 ∧
      f.nn ≠ 0x33 ∧ f.nn ≠ 0x55 ∧ f.nn ≠ 0x65 := by
  unfold decodeGroupF
  split <;> simp_all [eq_comm]

/-- Only the four groups with a second dispatch refuse (R95, R96), and each refuses its own list. -/
theorem decodeWord_error_iff : decodeWord config w = .error e ↔ e = .unsupported w ∧ unsupportedWord w := by
  rw [unsupportedWord_iff_fields]
  unfold decodeWord decodeFields
  split
  case h_1 hop => simp [hop, decodeGroup0_error_iff]
  case h_9 hop => simp [hop, decodeGroup8_error_iff]
  case h_15 hop => simp [hop, decodeGroupE_error_iff]
  case h_16 =>
    have hop : (fieldsOf w).op = 0xF#4 := by
      simp only [fieldsOf_op_eq_iff, BitVec.reduceToNat, imp_false] at *
      omega
    simp [hop, decodeGroupF_error_iff]
  all_goals
    next hop => simp [hop]

/-- Settles O51: the equivalence above at the reject that names the word. -/
theorem unsupportedWordsAreExactlyTheListed : Obligations.UnsupportedWordsAreExactlyTheListed :=
  fun _ => (decodeWord_error_iff.trans (and_iff_right rfl)).symm

end DecodeError

/-! ## The opcode table (R98) -/

section Table
open Laws.EncodesItsRow
variable {w : Word} {i : Instr} {r q : OpcodeRow}

theorem selects_iff : r.selects w = true ↔ w &&& r.mask = r.pattern := decide_eq_true_iff

theorem encode_selects_itsRow (i : Instr) : Statement i := by
  cases i
  exacts [cls, ret, jp _, call _, seImm _ _, sneImm _ _, seReg _ _, ldImm _ _, addImm _ _, ldReg _ _, orReg _ _,
    andReg _ _, xorReg _ _, addReg _ _, sub _ _, shr _ _, subn _ _, shl _ _, sneReg _ _, ldI _, jpV0 _, rnd _ _,
    drw _ _ _, skp _, sknp _, ldVxDt _, ldVxK _, ldDtVx _, ldStVx _, addI _, ldF _, ldB _, stRegs _, ldRegs _]

/-- The mask of an instruction's row leaves its don't-care bits out (R97, R98). -/
theorem exists_row_of_decodeWord_ok (h : decodeWord config w = .ok i) :
    ∃ r ∈ opcodeTable, r.selects w = true ∧ r.mnemonic = i.mnemonic := by
  have hw := (decodeWord_ok h).cleared
  cases i with
  | cls => exact ⟨⟨"CLS", 0xF0FF, 0x00E0⟩, by decide, selects_iff.mpr hw, rfl⟩
  | ret => exact ⟨⟨"RET", 0xF0FF, 0x00EE⟩, by decide, selects_iff.mpr hw, rfl⟩
  | seReg x y =>
    obtain ⟨hop, -, -⟩ := clear_n_eq_encRR_iff.mp hw
    exact ⟨⟨"SE_REG", 0xF000, 0x5000⟩, by decide, selects_F000 (by rw [fieldsOf_op_eq_iff.mp hop]; rfl), rfl⟩
  | sneReg x y =>
    obtain ⟨hop, -, -⟩ := clear_n_eq_encRR_iff.mp hw
    exact ⟨⟨"SNE_REG", 0xF000, 0x9000⟩, by decide, selects_F000 (by rw [fieldsOf_op_eq_iff.mp hop]; rfl), rfl⟩
  | _ =>
    obtain rfl := (clear_dontCareBits_eq_iff rfl).mp hw
    obtain ⟨r, hr, hm, hs⟩ := encode_selects_itsRow _
    exact ⟨r, hr, hs, hm⟩

/-- R95, R96: a row looks past the high 4 bits only in the groups 0, 8, E and F, and in these it does; no row's pattern
is an unsupported word. -/
theorem opcodeTable_masks : ∀ r ∈ opcodeTable, ¬ unsupportedWord r.pattern ∧
    (r.mask = 0xF0FF#16 ∨ r.mask = 0xF00F#16 ∧ r.pattern.toNat / 4096 = 8 ∨
      r.mask = 0xF000#16 ∧ r.pattern.toNat / 4096 ∉ [0x0, 0x8, 0xE, 0xF]) := by
  unfold unsupportedWord
  decide

/-- What the row's mask keeps decides whether the word is unsupported, and the row's pattern is not. -/
theorem not_unsupportedWord_of_selects (hr : r ∈ opcodeTable) (hw : r.selects w = true) : ¬ unsupportedWord w := by
  obtain ⟨hp, hmask⟩ := opcodeTable_masks r hr
  rw [selects_iff, ← BitVec.toNat_inj] at hw
  contrapose! hp
  unfold unsupportedWord at hp ⊢
  obtain hm | ⟨hm, hop⟩ | ⟨hm, hop⟩ := hmask
  · rw [hm, and_F0FF_toNat] at hw
    have hop : w.toNat / 4096 = r.pattern.toNat / 4096 := by omega
    have hlow : w.toNat % 256 = r.pattern.toNat % 256 := by omega
    have hsel : w.toNat % 16 = r.pattern.toNat % 16 := by omega
    rwa [hop, hlow, hsel] at hp
  · rw [hm, and_F00F_toNat] at hw
    omega
  · rw [hm, and_F000_toNat] at hw
    simp only [List.mem_cons, List.not_mem_nil, or_false, not_or] at hop
    omega

/-- Two rows whose patterns agree on the bits that both masks keep are one row. -/
theorem opcodeTable_row_unique : ∀ r ∈ opcodeTable, ∀ q ∈ opcodeTable,
    r.pattern &&& q.mask = q.pattern &&& r.mask → r = q := by decide

theorem eq_of_selects (hr : r ∈ opcodeTable) (hq : q ∈ opcodeTable) (hrw : r.selects w = true)
    (hqw : q.selects w = true) : r = q := by
  rw [selects_iff] at hrw hqw
  apply opcodeTable_row_unique r hr q hq
  rw [← hrw, ← hqw]
  ac_rfl

/-- Settles O48: the row of an accepted word; a word that meets a row is not refused; the rows are disjoint. -/
theorem decoderAgreesWithTheOpcodeTable : Obligations.DecoderAgreesWithTheOpcodeTable := by
  intro w
  refine ⟨fun i h => exists_row_of_decodeWord_ok h, ?_, fun r hr q hq => eq_of_selects hr hq⟩
  rintro ⟨e, he⟩ r hr
  obtain ⟨-, hu⟩ := decodeWord_error_iff.mp he
  by_contra hs
  exact not_unsupportedWord_of_selects hr (eq_true_of_ne_false hs) hu

/-- Settles O46: the decoder evaluates on each of the fourteen words. -/
theorem writtenOutWordsDecode : Obligations.WrittenOutWordsDecode := by
  unfold Obligations.WrittenOutWordsDecode
  decide

end Table

end Sys2Proof.Machine

/-! # Proofs: step, fetch and decode (40_step_fetch_decode.md)

Layers: when each rule raises a condition (R125, R261 to R266) and what a rule that completes does to PC and FAULT
(R122, R128); from these the table of conditions and the PC law of exec; what a step reports (R126); a step on a
decoded word, on an unsupported word, while halted and on a fetch outside memory (R120 to R127). -/

namespace Sys2Proof.Machine

/-! ## When a rule raises a condition -/

section Raises
variable {s : State} {c : Condition} {x y : Reg} {n : Nibble} {nnn : Addr12}

theorem retRule_error_iff : retRule s = .error c ↔ s.sp.val = 0 ∧ .stackUnderflow = c := by
  obtain h | ⟨k, h⟩ := sp_eq_zero_or_succ s
  · simp [retRule_empty h, h]
  · simp [retRule_pop h, h]

theorem callRule_error_iff : callRule nnn s = .error c ↔ s.sp.val = 16 ∧ .stackOverflow = c := by
  obtain h | ⟨k, h⟩ := sp_eq_full_or_slot s
  · simp [callRule_full h, h]
  · simp [callRule_push h, show s.sp.val ≠ 16 by omega]

/-- A read raises iff it has a last byte and that byte is above 0xFFF (R70). -/
theorem loadBytes_error_iff {base m : Nat} : loadBytes config s base m = .error c ↔
    (0 < m ∧ 0xFFF < base + m - 1) ∧ .addressOutOfRange = c := by
  by_cases h : 0 < m ∧ 0xFFF < base + m - 1
  · simp only [loadBytes_error (show ¬ (m = 0 ∨ base + m ≤ 4096) by omega), h, Except.error.injEq, and_self,
      true_and]
  · simp only [loadBytes_ok (show m = 0 ∨ base + m ≤ 4096 by omega), h, reduceCtorEq, false_and]

/-- A store of at least one byte raises iff its last byte is above 0xFFF (R70). -/
theorem storeBytes_error_iff {base m : Nat} {bs : List Byte} (hbs : bs.length = m + 1) :
    storeBytes config s base bs = .error c ↔ 0xFFF < base + m ∧ .addressOutOfRange = c := by
  by_cases h : 0xFFF < base + m
  · simp only [storeBytes_error (show ¬ (bs.length = 0 ∨ base + bs.length ≤ 4096) by omega), h, Except.error.injEq,
      true_and]
  · simp only [storeBytes_ok (show base + bs.length ≤ 4096 by omega), h, reduceCtorEq, false_and]

/-- A draw raises what the read of its sprite raises (R212). -/
theorem drwRule_error_iff : drwRule config x y n s = .error c ↔
    (0 < n.toNat ∧ 0xFFF < s.i.toNat + n.toNat - 1) ∧ .addressOutOfRange = c := by
  rw [← loadBytes_error_iff (s := s)]
  unfold drwRule State.base
  split <;> simp [*]

/-- A register load raises what the read of its bytes raises (R195). -/
theorem ldRegsRule_error_iff :
    ldRegsRule config x s = .error c ↔ 0xFFF < s.i.toNat + x.val ∧ .addressOutOfRange = c := by
  have hread : loadBytes config s s.base (x.val + 1) = .error c ↔
      0xFFF < s.i.toNat + x.val ∧ .addressOutOfRange = c :=
    loadBytes_error_iff.trans (and_congr_left' (and_iff_right (Nat.succ_pos _)))
  rw [← hread]
  unfold ldRegsRule
  split <;> simp [*]

theorem ldBRule_error_iff :
    ldBRule config x s = .error c ↔ 0xFFF < s.i.toNat + 2 ∧ .addressOutOfRange = c :=
  storeBytes_error_iff (bcdDigits_length _)

theorem stRegsRule_error_iff :
    stRegsRule config x s = .error c ↔ 0xFFF < s.i.toNat + x.val ∧ .addressOutOfRange = c :=
  storeBytes_error_iff (regsUpTo_length s x)

/-- A register names a key, or its value is above 15 (R225). -/
theorem getV_eq_key_or_above (s : State) (x : Reg) :
    (∃ k : Key, (s.getV x).toNat = k.val) ∨ 15 < (s.getV x).toNat := by
  by_cases h : (s.getV x).toNat < 16
  · exact .inl ⟨⟨_, h⟩, rfl⟩
  · exact .inr (by omega)

theorem keySkip_named {k : Key} (f : Bool → Bool) (h : (s.getV x).toNat = k.val) :
    keySkip f x s = .ok (s.skipIf (f (s.keyDown k))) := by
  simp [keySkip, keyIndex_some h]

theorem keySkip_above (f : Bool → Bool) (h : 15 < (s.getV x).toNat) :
    keySkip f x s = .error .keyIndexOutOfRange := by
  simp [keySkip, keyIndex_none h]

theorem keySkip_error_iff {f : Bool → Bool} :
    keySkip f x s = .error c ↔ 15 < (s.getV x).toNat ∧ .keyIndexOutOfRange = c := by
  obtain ⟨k, h⟩ | h := getV_eq_key_or_above s x
  · simp [keySkip_named f h, show ¬ 15 < (s.getV x).toNat by omega]
  · simp [keySkip_above f h, h]

/-- A key skip that completes names a key and tests its level (R225, R226). -/
theorem exists_key_of_keySkip_ok {t : State} {f : Bool → Bool} (h : keySkip f x s = .ok t) :
    ∃ k : Key, (s.getV x).toNat = k.val ∧ t = s.skipIf (f (s.keyDown k)) := by
  obtain ⟨k, hk⟩ | hx := getV_eq_key_or_above s x
  · rw [keySkip_named f hk] at h
    cases h
    exact ⟨k, hk, rfl⟩
  · simp [keySkip_above f hx] at h

/-- A wait for a key raises nothing, also with none pressed (R227). -/
theorem ldVxKRule_ne_error : ldVxKRule x s ≠ .error c := by
  unfold ldVxKRule
  split <;> nofun

/-- The table of R261, R262, R263 and R266 gives exactly the conditions that the rules raise. -/
theorem ruleOf_error_iff {b : Byte} {i : Instr} :
    ruleOf config b i s.advance = .error c ↔ raisedBy i s = some c := by
  cases i with
  | ret => simp [ruleOf, raisedBy, retRule_error_iff]
  | call nnn => simp [ruleOf, raisedBy, callRule_error_iff]
  | skp x => simp [ruleOf, raisedBy, skpRule_eq_keySkip, keySkip_error_iff]
  | sknp x => simp [ruleOf, raisedBy, sknpRule_eq_keySkip, keySkip_error_iff]
  | drw x y n => simp [ruleOf, raisedBy, drwRule_error_iff]
  | ldRegs x => simp [ruleOf, raisedBy, ldRegsRule_error_iff]
  | ldB x => simp [ruleOf, raisedBy, ldBRule_error_iff]
  | stRegs x => simp [ruleOf, raisedBy, stRegsRule_error_iff]
  | ldVxK x => simp [ruleOf, raisedBy, ldVxKRule_ne_error]
  | _ =>
    constructor
    · intro h
      cases h
    · nofun

end Raises

/-! ## PC and FAULT after a rule that completes -/

section PcLaw
variable {s t : State} {i : Instr} {x : Reg}

@[simp] theorem State.skipIf_fault (s : State) (taken : Bool) : (s.skipIf taken).fault = s.fault := by
  cases taken <;> rfl

@[simp] theorem State.advance_keyDown (s : State) (k : Key) : s.advance.keyDown k = s.keyDown k := rfl

/-- A skip adds 2 to the baseline advance (R148). -/
theorem advance_skipIf_pc (s : State) (taken : Bool) :
    (s.advance.skipIf taken).pc = if taken then s.pc + 4 else s.pc + 2 := by
  cases taken
  · rfl
  · exact BitVec.add_assoc s.pc 2 2

theorem pcAfter_ret {k : Fin 16} (hk : s.sp.val = k.val + 1) : pcAfter .ret s = s.stack[k] := by
  simp [pcAfter, hk]

/-- Exactly one key is the one a register names. -/
theorem exists_named_key_iff {k : Key} (hk : (s.getV x).toNat = k.val) (P : Key → Prop) :
    (∃ j : Key, j.val = (s.getV x).toNat ∧ P j) ↔ P k := by
  constructor
  · rintro ⟨j, hj, h⟩
    rwa [Fin.ext (hj.trans hk)] at h
  · intro h
    exact ⟨k, hk.symm, h⟩

/-- With a key pressed the wait goes on to the next instruction, with none it stays (R227). -/
theorem pc_after_ldVxKRule (hr : ldVxKRule x s.advance = .ok t) :
    t.pc = if ∃ k : Key, s.keyDown k = true then s.pc + 2 else s.pc := by
  unfold ldVxKRule at hr
  split at hr
  next k hk =>
    cases hr
    have hdown : s.keyDown k = true := List.find?_some hk
    rw [if_pos ⟨k, hdown⟩]
    rfl
  next hnone =>
    cases hr
    have hup : ∀ k, s.keyDown k = false := firstKey_eq_none.mp hnone
    simp [hup]

/-- The table of R128, and FAULT untouched, after every rule that completes. -/
theorem ruleOf_ok_pc_fault {b : Byte} (hr : ruleOf config b i s.advance = .ok t) :
    t.pc = pcAfter i s ∧ t.fault = s.fault := by
  cases i with
  | ret =>
    obtain ⟨k, hk, rfl⟩ := retRule_cases hr
    exact ⟨(pcAfter_ret (s := s) hk).symm, rfl⟩
  | call =>
    obtain ⟨k, -, rfl⟩ := callRule_cases hr
    exact ⟨rfl, rfl⟩
  | seImm | sneImm | seReg | sneReg =>
    cases hr
    simp [advance_skipIf_pc, pcAfter]
  | skp x =>
    obtain ⟨k, hk, rfl⟩ := exists_key_of_keySkip_ok ((skpRule_eq_keySkip x _).symm.trans hr)
    refine ⟨?_, State.skipIf_fault _ _⟩
    rw [State.advance_getV] at hk
    simp only [advance_skipIf_pc, pcAfter, exists_named_key_iff hk, State.advance_keyDown, id_eq]
  | sknp x =>
    obtain ⟨k, hk, rfl⟩ := exists_key_of_keySkip_ok ((sknpRule_eq_keySkip x _).symm.trans hr)
    refine ⟨?_, State.skipIf_fault _ _⟩
    rw [State.advance_getV] at hk
    simp only [advance_skipIf_pc, pcAfter, exists_named_key_iff hk, State.advance_keyDown, Bool.not_eq_true']
  | ldVxK =>
    refine ⟨pc_after_ldVxKRule hr, ?_⟩
    obtain ⟨k, rfl⟩ | rfl := ldVxKRule_cases hr
    all_goals rfl
  | ldB =>
    obtain ⟨-, rfl⟩ := storeBytes_cases (List.cons_ne_nil _ _) hr
    exact ⟨rfl, rfl⟩
  | stRegs x =>
    obtain ⟨-, rfl⟩ := storeBytes_cases (regsUpTo_ne_nil _ x) hr
    exact ⟨rfl, rfl⟩
  | drw =>
    obtain ⟨d, f, rfl⟩ := drwRule_cases hr
    exact ⟨rfl, rfl⟩
  | ldRegs =>
    obtain ⟨v, -, rfl⟩ := ldRegsRule_cases hr
    exact ⟨rfl, rfl⟩
  | _ =>
    cases hr
    exact ⟨rfl, rfl⟩

/-- An instruction for which the table has no condition completes, with PC by R128 and FAULT as it was. -/
theorem exec_completes (h : raisedBy i s = none) :
    ∃ t, exec i s = .next t ∧ t.pc = pcAfter i s ∧ t.fault = s.fault := by
  rw [exec_eq_execute]
  cases hr : ruleOf config s.draw i s.advance with
  | ok t => exact ⟨t, execute_ok hr, ruleOf_ok_pc_fault hr⟩
  | error c => simp [ruleOf_error_iff.mp hr] at h

/-- Settles O7: a tabled condition is raised by the rule and latched, and without one the rule completes. -/
theorem instructionsRaiseExactlyTheTabledConditions : Obligations.InstructionsRaiseExactlyTheTabledConditions := by
  intro i s
  cases h : raisedBy i s with
  | some c => exact exec_fault (ruleOf_error_iff.mpr h)
  | none =>
    obtain ⟨t, he, -, hf⟩ := exec_completes h
    exact ⟨t, he, hf⟩

/-- Where nothing was latched before, exec ends with PC by the table of R128 or with a latched condition and PC as it
was (R125). -/
theorem exec_pc_cases (hf : s.fault = none) (he : exec i s = .next t) :
    t.fault = none ∧ t.pc = pcAfter i s ∨ t.fault ≠ none ∧ t.pc = s.pc := by
  obtain hr | ⟨c, -, rfl⟩ := exec_cases he
  · obtain ⟨hpc, hfault⟩ := ruleOf_ok_pc_fault hr
    exact .inl ⟨hfault.trans hf, hpc⟩
  · exact .inr ⟨Option.some_ne_none c, rfl⟩

/-- Settles O8: by whether the fetched word decodes, and by the two ends of exec. -/
theorem pcAfterStepFollowsTheLaw : Obligations.PcAfterStepFollowsTheLaw := by
  intro s t w hf hw hs
  cases hd : decodeWord config w with
  | ok i =>
    rw [step_decoded hf hw hd] at hs
    obtain ⟨hnone, hpc⟩ | ⟨hsome, hpc⟩ := exec_pc_cases hf hs
    · exact ⟨fun _ => hpc, fun h => absurd hnone h⟩
    · exact ⟨fun h => absurd h hsome, fun _ => hpc⟩
  | error e =>
    rw [step_unsupported hf hw hd] at hs
    cases hs
    exact ⟨fun _ => rfl, fun h => absurd hf h⟩

end PcLaw

/-! ## What a step reports (R126, R127, R268) -/

section Reports
variable {s : State} {w : Word}

theorem reportOf_halted (h : s.fault ≠ none) : reportOf config s = none := by
  obtain ⟨c, hc⟩ := Option.ne_none_iff_exists'.mp h
  simp [reportOf, hc]

theorem reportOf_fetchFault (hp : 0xFFE < s.pc.toNat) : reportOf config s = none := by
  simp [reportOf, fetchWord_error hp]

theorem reportOf_decoded {i : Instr} (hw : fetchWord config s = .ok w) (hd : decodeWord config w = .ok i) :
    reportOf config s = none := by
  cases hf : s.fault with
  | none => simp [reportOf, hf, hw, hd]
  | some c => exact reportOf_halted (by simp [hf])

theorem reportOf_unsupported {e : DecodeReject} (hf : s.fault = none) (hw : fetchWord config s = .ok w)
    (hd : decodeWord config w = .error e) : reportOf config s = some ⟨w, s.pc⟩ := by
  simp [reportOf, hf, hw, hd]

/-- A word that is not on the list of R99 decodes. -/
theorem exists_decodeWord_ok (h : ¬ unsupportedWord w) : ∃ i, decodeWord config w = .ok i := by
  cases hd : decodeWord config w with
  | ok i => exact ⟨i, rfl⟩
  | error e => exact absurd (decodeWord_error_iff.mp hd).2 h

/-- Settles O5: a word on the list is refused by the decoder, every other one decodes. -/
theorem unsupportedWordIsReportedAndSkipped : Obligations.UnsupportedWordIsReportedAndSkipped := by
  rintro s w hf hp rfl
  have hw := fetchWord_ok hp
  constructor
  · intro hu
    have hd := decodeWord_error_iff.mpr ⟨rfl, hu⟩
    exact ⟨⟨s.advance, step_unsupported hf hw hd, rfl, changesOnly_advance s⟩, reportOf_unsupported hf hw hd⟩
  · intro hu
    obtain ⟨i, hd⟩ := exists_decodeWord_ok hu
    exact reportOf_decoded hw hd

end Reports

/-! ## The cases of a step (R120, R121, R127) -/

theorem decodeWord_of_decodeBytes {hi lo : Byte} {i : Instr} {rest : List Byte}
    (h : decodeBytes config [hi, lo] = .ok (i, rest)) : decodeWord config (wordOfBytes hi lo) = .ok i := by
  simp only [decodeBytes] at h
  split at h
  next j hd =>
    cases h
    exact hd
  next => cases h

/-- Settles O2: the fetched word decodes to the instruction, and exec is the execute phase around its rule. -/
theorem stepRunsDecodedInstruction : Obligations.StepRunsDecodedInstruction := by
  intro s i hf hp hd
  refine ⟨step_decoded hf (fetchWord_ok hp) (decodeWord_of_decodeBytes hd), ?_⟩
  rw [exec_eq_execute]
  rfl

theorem tick_halted {s : State} (h : s.fault ≠ none) : tick s = (s, false) := by
  simp [tick, Option.isSome_iff_ne_none.mpr h]

/-- Settles O3: the halted equation of the step, the report and the tick. -/
theorem haltedStepAndTickChangeNothing : Obligations.HaltedStepAndTickChangeNothing :=
  fun _ h => ⟨step_halted h, reportOf_halted h, tick_halted h⟩

/-- Settles O4: the fetch raises AddressOutOfRange, so there is no word to report. -/
theorem fetchOutsideMemoryFaults : Obligations.FetchOutsideMemoryFaults :=
  fun _ hf hp => ⟨step_fetchFault hf hp, reportOf_fetchFault hp⟩

/-- Settles O6: each case of a step answers a next state. -/
theorem everyStepCompletes : Obligations.EveryStepCompletes := exists_step_eq_next

end Sys2Proof.Machine

/-! # Proofs: control flow (41_control_flow.md)

Layers: the frames of a jump, a push and a pop; exec of each instruction, one equation per outcome (R140 to R147); a
return after its call (R150). -/

namespace Sys2Proof.Machine

section ControlFlow
variable {s t : State} {i : Instr} {k : Fin 16} {nnn : Addr12} {a b : Byte}

/-! ## Frames -/

/-- A change of PC changes no other part. -/
theorem changesOnly_setPc (s : State) (w : Word) : ChangesOnly [.pc] s (s.setPc w) := by
  intro p hp
  cases p with
  | pc => simp at hp
  | _ => rfl

/-- A push and a jump change the slot pushed to, SP and PC (R142). -/
theorem changesOnly_push (s : State) (k : Fin 16) (ra : Word) (n : Fin 17) (w : Word) :
    ChangesOnly [.pc, .sp, .stack k] s (((s.setStack k ra).setSp n).setPc w) := by
  intro p hp
  cases p with
  | pc | sp => simp at hp
  | stack j =>
    have hne : j ≠ k := by simpa using hp
    exact Vector.getElem_set_ne k.isLt j.isLt fun e => hne (Fin.ext e.symm)
  | _ => rfl

/-- A pop changes SP and PC; every slot keeps its value (R25, R140). -/
theorem changesOnly_pop (s : State) (n : Fin 17) (w : Word) : ChangesOnly [.pc, .sp] s ((s.setSp n).setPc w) := by
  intro p hp
  cases p with
  | pc | sp => simp at hp
  | _ => rfl

/-! ## Jumps, calls and returns (R140, R141, R142, R147) -/

/-- A rule that completes gives exec its result (R125). -/
theorem exec_ok (h : ruleOf config s.draw i s.advance = .ok t) : exec i s = .next t := by
  rw [exec_eq_execute]
  exact execute_ok h

theorem exec_jp (nnn : Addr12) (s : State) : exec (.jp nnn) s = .next (s.setPc (address nnn)) :=
  exec_ok rfl

theorem exec_jpV0 (nnn : Addr12) (s : State) :
    exec (.jpV0 nnn) s = .next (s.setPc (offsetTarget (s.getV 0) nnn)) :=
  exec_ok rfl

theorem exec_call_push (hk : s.sp.val = k.val) :
    exec (.call nnn) s = .next (((s.setStack k (s.pc + 2)).setSp k.succ).setPc (address nnn)) :=
  exec_ok (callRule_push (s := s.advance) hk)

theorem exec_call_full (h : s.sp.val = 16) : exec (.call nnn) s = .next { s with fault := some .stackOverflow } :=
  exec_fault (callRule_full h)

theorem exec_ret_pop (hk : s.sp.val = k.val + 1) :
    exec .ret s = .next ((s.setSp k.castSucc).setPc s.stack[k]) :=
  exec_ok (retRule_pop (s := s.advance) hk)

/-- Settles O9: the equation of JP and the frame of a change of PC. -/
theorem jumpSetsPcToTarget : Obligations.JumpSetsPcToTarget :=
  fun nnn s => ⟨_, exec_jp nnn s, address_toNat nnn, changesOnly_setPc s _⟩

/-- Settles O10: the equation of JP V0; a byte and a 12-bit address never wrap a word. -/
theorem offsetJumpAddsV0 : Obligations.OffsetJumpAddsV0 :=
  fun nnn s => ⟨_, exec_jpV0 nnn s, offsetTarget_toNat _ nnn, changesOnly_setPc s _⟩

/-- Settles O11: the equation of a CALL below 16 live calls, and the frame of a push. -/
theorem callPushesReturnAddress : Obligations.CallPushesReturnAddress := by
  intro nnn s k hk
  refine ⟨_, exec_call_push hk.symm, ?_, congrArg (· + 1) hk, address_toNat nnn, changesOnly_push s k _ _ _⟩
  exact Vector.getElem_set_self k.isLt

/-- Settles O12: the equation of a RET with an address held, and the frame of a pop. -/
theorem returnPopsAddress : Obligations.ReturnPopsAddress :=
  fun s _ hk => ⟨_, exec_ret_pop hk.symm, rfl, rfl, changesOnly_pop s _ _⟩

/-! ## A return after its call (R150) -/

/-- A return on the stack that a call left pops the address the call pushed: O12 at the slot of O11, and the frames of
both. -/
theorem exec_call_then_ret (nnn : Addr12) (hk : k.val = s.sp.val) :
    ∃ t, exec (.call nnn) s = .next t ∧ ChangesOnly [.pc, .sp, .stack k] s t ∧
      ∀ u : State, u.sp = t.sp → u.stack = t.stack →
        ∃ w, exec .ret u = .next w ∧ w.pc = s.pc + 2 ∧ w.sp = s.sp ∧ ChangesOnly [.pc, .sp] u w := by
  obtain ⟨t, hcall, hslot, hsp, -, hframe⟩ := callPushesReturnAddress nnn s k hk
  refine ⟨t, hcall, hframe, fun u husp hustack => ?_⟩
  have hheld : k.val + 1 = u.sp.val := by rw [husp, hsp, hk]
  obtain ⟨w, hret, hwsp, hwpc, hwframe⟩ := returnPopsAddress u k hheld
  have hpc : w.pc = s.pc + 2 := by rw [hwpc, hustack, hslot]
  exact ⟨w, hret, hpc, Fin.ext (hwsp.trans hk), hwframe⟩

/-- Settles O14: the call and the return that undoes it, both with V, I and the timers outside what they change; and
the equation of a CALL at 16 live calls. -/
theorem returnRestoresCallersPc : Obligations.ReturnRestoresCallersPc := by
  constructor
  · intro nnn s hs
    obtain ⟨t, hcall, hframe, hreturn⟩ := exec_call_then_ret (k := ⟨s.sp.val, hs⟩) nnn rfl
    refine ⟨t, hcall, fun r => hframe (.v r) (by simp), hframe .i (by simp), hframe .dt (by simp),
      hframe .st (by simp), fun u husp hustack => ?_⟩
    obtain ⟨w, hret, hpc, hsp, hwframe⟩ := hreturn u husp hustack
    exact ⟨w, hret, hpc, hsp, fun r => hwframe (.v r) (by simp), hwframe .i (by simp), hwframe .dt (by simp),
      hwframe .st (by simp)⟩
  · intro nnn s hs
    exact ⟨_, exec_call_full hs, rfl⟩

/-! ## Skips (R143 to R146, R148) -/

/-- An instruction whose rule is a skip on the test `taken` of the condition `c` changes only PC, by 4 where `c` holds
and by 2 where not. -/
theorem exec_skip {taken : Bool} {c : Prop} [Decidable c] (hc : taken = true ↔ c)
    (h : ruleOf config s.draw i s.advance = .ok (s.advance.skipIf taken)) :
    ∃ t, exec i s = .next t ∧ t.pc = (if c then s.pc + 4 else s.pc + 2) ∧ ChangesOnly [.pc] s t := by
  refine ⟨_, exec_ok h, ?_, ?_⟩
  · simp only [advance_skipIf_pc, hc]
  · rw [State.skipIf_eq]
    exact changesOnly_setPc s _

/-- A skip on equal bytes (R143, R145). -/
theorem exec_skip_eq (h : ruleOf config s.draw i s.advance = .ok (s.advance.skipIf (a == b))) :
    ∃ t, exec i s = .next t ∧ t.pc = (if a.toNat = b.toNat then s.pc + 4 else s.pc + 2) ∧ ChangesOnly [.pc] s t :=
  exec_skip (beq_iff_eq.trans BitVec.toNat_inj.symm) h

/-- A skip on different bytes (R144, R146). -/
theorem exec_skip_ne (h : ruleOf config s.draw i s.advance = .ok (s.advance.skipIf (a != b))) :
    ∃ t, exec i s = .next t ∧ t.pc = (if a.toNat = b.toNat then s.pc + 2 else s.pc + 4) ∧ ChangesOnly [.pc] s t := by
  have hskip := exec_skip (bne_iff_ne.trans BitVec.toNat_inj.symm.not) h
  rwa [ite_not] at hskip

/-- Settles O15: SE and SNE are skips on equal and on different bytes, V[X] and NN. -/
theorem immediateSkipsCompareRegister : Obligations.ImmediateSkipsCompareRegister :=
  fun _ _ _ => ⟨exec_skip_eq rfl, exec_skip_ne rfl⟩

/-- Settles O16: SE and SNE are skips on equal and on different bytes, V[X] and V[Y]. -/
theorem registerSkipsCompareRegisters : Obligations.RegisterSkipsCompareRegisters :=
  fun _ _ _ => ⟨exec_skip_eq rfl, exec_skip_ne rfl⟩

end ControlFlow

end Sys2Proof.Machine

/-! # Proofs: load, arithmetic, logic, shift and random (42_alu.md)

Layers: the frames of a result and of a draw; the flags as numbers; exec of an instruction whose rule writes a result,
and of one whose rule writes a result and a flag (R172). -/

namespace Sys2Proof.Machine

section Alu
variable {s t u : State} {i : Instr} {x : Reg}

/-! ## Frames -/

/-- Frames of one change after another compose. -/
theorem ChangesOnly.trans {ps qs : List Part} (h : ChangesOnly ps s t) (h' : ChangesOnly qs t u) :
    ChangesOnly (ps ++ qs) s u := by
  intro p hp
  obtain ⟨hps, hqs⟩ := not_or.mp (mt List.mem_append.mpr hp)
  exact Part.same_trans (h p hps) (h' p hqs)

/-- A drawn byte changes the model's count of draws and no other part (R174). -/
theorem changesOnly_countDraw (s : State) : ChangesOnly [.draws] s s.countDraw := by
  intro p hp
  cases p with
  | draws => simp at hp
  | _ => rfl

/-- A result in V[X] on the advanced state (R122). -/
theorem changesOnly_result (s : State) (x : Reg) (b : Byte) : ChangesOnly [.pc, .v x] s (s.advance.setV x b) :=
  (changesOnly_advance s).trans (changesOnly_setV _ x b)

/-! ## The flags as numbers (R22, R160) -/

theorem flagByte_toNat_of_iff {f : Bool} {c : Prop} [Decidable c] (h : f = true ↔ c) :
    (flagByte f).toNat = if c then 1 else 0 := by
  simp only [flagByte_toNat, h]

/-- The bit SHR shifts out is the remainder of halving (R169). -/
theorem flagByte_shrOut_toNat (a : Byte) : (flagByte (shrOut a)).toNat = a.toNat % 2 := by
  rw [flagByte_toNat_of_iff (shrOut_iff a)]
  split <;> omega

/-- The bit SHL shifts out is the carry of doubling (R171). -/
theorem flagByte_shlOut_toNat (a : Byte) : (flagByte (shlOut a)).toNat = a.toNat / 128 := by
  have := a.isLt
  rw [flagByte_toNat_of_iff (shlOut_iff a)]
  split <;> omega

/-! ## A result alone (R161 to R166) -/

/-- Settles O17: each rule is one result on the advanced state, and a sum of bytes wraps mod 256. -/
theorem loadsAndAddImmediateWriteOnlyTheirRegister : Obligations.LoadsAndAddImmediateWriteOnlyTheirRegister :=
  ⟨fun x _ s => ⟨_, exec_ok rfl, State.setV_getV_self _ x _, rfl, changesOnly_result s x _⟩,
    fun x _ s => ⟨_, exec_ok rfl, by simp, rfl, changesOnly_result s x _⟩,
    fun x _ s => ⟨_, exec_ok rfl, State.setV_getV_self _ x _, rfl, changesOnly_result s x _⟩⟩

/-- Settles O18: each rule is one result on the advanced state, and the operations of bytes act bit by bit. -/
theorem logicActsBitwiseWithoutFlag : Obligations.LogicActsBitwiseWithoutFlag :=
  fun x _ s =>
    ⟨⟨_, exec_ok rfl, by simp, rfl, changesOnly_result s x _⟩,
      ⟨_, exec_ok rfl, by simp, rfl, changesOnly_result s x _⟩,
      ⟨_, exec_ok rfl, by simp, rfl, changesOnly_result s x _⟩⟩

/-! ## A result and a flag (R167 to R172) -/

/-- An instruction whose rule writes a result to V[X] and then a flag to VF changes only PC and these two; where X is
VF, the flag stands (D4). -/
theorem exec_resultAndFlag {b : Byte} {f : Bool} {result flag : Nat}
    (h : ruleOf config s.draw i s.advance = .ok (s.advance.writeResultAndFlag config x b f))
    (hb : b.toNat = result) (hf : (flagByte f).toNat = flag) :
    ∃ t, exec i s = .next t ∧ (x ≠ 15 → (t.getV x).toNat = result) ∧ (t.getV 15).toNat = flag ∧
      t.pc = s.pc + 2 ∧ ChangesOnly [.pc, .v x, .v 15] s t := by
  refine ⟨_, exec_ok h, fun hx => ?_, ?_, rfl, (changesOnly_result s x b).trans (changesOnly_setV _ VF _)⟩
  · rw [writeResultAndFlag_getV, if_neg hx, if_pos rfl, hb]
  · rw [writeResultAndFlag_getV, if_pos rfl, hf]

/-- A difference of bytes, as the number the claims name (R168, R170). -/
theorem byte_sub_toNat (a b : Byte) : (a - b).toNat = (256 + a.toNat - b.toNat) % 256 := by
  have := b.isLt
  rw [BitVec.toNat_sub]
  omega

/-- Settles O19: the sum with its carry, and the two differences with their strict comparisons. -/
theorem addAndSubtractWriteResultThenFlag : Obligations.AddAndSubtractWriteResultThenFlag :=
  fun _ _ _ =>
    ⟨exec_resultAndFlag rfl (BitVec.toNat_add _ _) (flagByte_toNat_of_iff (carryFlag_iff _ _)),
      exec_resultAndFlag rfl (byte_sub_toNat _ _) (flagByte_toNat_of_iff (greaterFlag_iff _ _)),
      exec_resultAndFlag rfl (byte_sub_toNat _ _) (flagByte_toNat_of_iff (greaterFlag_iff _ _))⟩

theorem byte_shiftRight_one_toNat (a : Byte) : (a >>> 1).toNat = a.toNat / 2 := by
  rw [BitVec.toNat_ushiftRight, Nat.shiftRight_one]

theorem byte_shiftLeft_one_toNat (a : Byte) : (a <<< 1).toNat = a.toNat * 2 % 256 := by
  rw [BitVec.toNat_shiftLeft, Nat.shiftLeft_eq, Nat.pow_one]

/-- Settles O20: halving and doubling V[X] itself (D3), with the bit shifted out. -/
theorem shiftsMoveOneBitIntoTheFlag : Obligations.ShiftsMoveOneBitIntoTheFlag :=
  fun _ _ _ =>
    ⟨exec_resultAndFlag rfl (byte_shiftRight_one_toNat _) (flagByte_shrOut_toNat _),
      exec_resultAndFlag rfl (byte_shiftLeft_one_toNat _) (flagByte_shlOut_toNat _)⟩

/-! ## Random (R173, R174) -/

/-- Settles O21: the rule writes the masked byte, whatever the byte is, and then counts the draw. -/
theorem randomStaysInsideItsMask : Obligations.RandomStaysInsideItsMask := by
  have hmasked (r : Byte) (x : Reg) (nn : Byte) (s : State) : ((s.setV x (r &&& nn)).countDraw).getV x = r &&& nn :=
    State.setV_getV_self s x _
  refine ⟨fun x nn s => ⟨_, exec_ok rfl, hmasked _ x nn _, fun b _ hb => ?_, rfl, rfl, ?_⟩,
    fun r x nn s => ⟨_, rfl, hmasked r x nn s⟩⟩
  · rw [hmasked, BitVec.getLsbD_and, hb, Bool.and_false]
  · exact (changesOnly_result s x _).trans (changesOnly_countDraw _)

end Alu

end Sys2Proof.Machine

/-! # Proofs: index register and memory (43_index_memory.md)

Layers: the frames of a change of I, of a store from I up and of a register load; the decimal digits of a byte (R193);
the statements, each from its instruction's equation and frame. -/

namespace Sys2Proof.Machine

section IndexMemory
variable {s : State} {i : Instr} {x k : Reg} {p : Part}

/-! ## Frames -/

/-- A new I on the advanced state (R122, R190 to R192). -/
theorem changesOnly_index (s : State) (w : Word) : ChangesOnly [.pc, .i] s (s.advance.setI w) := by
  intro p hp
  cases p with
  | pc | i => simp at hp
  | _ => rfl

/-- A store from I up on the advanced state leaves I and every other byte alone (R63, R196). -/
theorem changesOnly_store (s : State) (bs : List Byte) :
    ChangesOnly (.pc :: cellsAt s.i.toNat bs.length) s
      (s.advance.setMem (s.mem.writeBytes config s.i.toNat bs)) :=
  (changesOnly_advance s).trans (changesOnly_setMem s.advance s.i.toNat bs)

/-- A register load changes no part but registers. -/
theorem same_loadRegsFrom (s : State) (m : Nat) (bs : List Byte) (hp : ∀ r, p ≠ .v r) :
    p.same s (s.loadRegsFrom m bs) := by
  rw [loadRegsFrom_eq]
  cases p with
  | v r => exact absurd rfl (hp r)
  | _ => rfl

/-- The registers above V[X] are not loaded (R195). -/
theorem getV_load_above (s : State) (hk : x.val < k.val) :
    (s.advance.loadRegsFrom 0 (loadedBytes s x)).getV k = s.getV k := by
  have hlen := loadedBytes_length s x
  rw [loadRegsFrom_getV _ _ _ (by omega), dif_neg (by omega), State.advance_getV]

/-! ## The digits of a byte (R193) -/

/-- The stored bytes stand in order from the base up (R65). -/
theorem read_writeBytes_add (m : Memory) (base : Nat) {bs : List Byte} {j : Nat} (hj : j < bs.length) :
    (m.writeBytes config base bs).read (base + j) = bs[j] := by
  rw [Memory.read_writeBytes, dif_pos (by omega)]
  simp only [Nat.add_sub_cancel_left]

/-- Three bytes are decimal digits, hundreds first, of the number `v`. -/
def IsDecimalOf (v : Nat) (hundreds tens units : Byte) : Prop :=
  hundreds.toNat ≤ 2 ∧ tens.toNat ≤ 9 ∧ units.toNat ≤ 9 ∧
    v = 100 * hundreds.toNat + 10 * tens.toNat + units.toNat

theorem bcdDigits_isDecimalOf (b : Byte) :
    IsDecimalOf b.toNat (bcdDigits b)[0] (bcdDigits b)[1] (bcdDigits b)[2] := by
  have hb := b.isLt
  have hbyte {d : Nat} (hd : d < 256) : (BitVec.ofNat 8 d).toNat = d := Nat.mod_eq_of_lt hd
  simp only [IsDecimalOf, bcdDigits, List.getElem_cons_zero, List.getElem_cons_succ]
  rw [hbyte (by omega), hbyte (by omega), hbyte (by omega)]
  omega

/-- What LD B leaves from the base up, hundreds at the base. -/
theorem read_bcd_isDecimalOf (m : Memory) (base : Nat) (b : Byte) :
    IsDecimalOf b.toNat ((m.writeBytes config base (bcdDigits b)).read base)
      ((m.writeBytes config base (bcdDigits b)).read (base + 1))
      ((m.writeBytes config base (bcdDigits b)).read (base + 2)) := by
  have hread (j : Nat) (hj : j < 3) := read_writeBytes_add m base (bs := bcdDigits b) hj
  have hfirst := hread 0 (by decide)
  rw [Nat.add_zero] at hfirst
  rw [hfirst, hread 1 (by decide), hread 2 (by decide)]
  exact bcdDigits_isDecimalOf b

/-! ## The index register (R190 to R192) -/

/-- An instruction whose rule sets I to `w` changes only PC and I. -/
theorem exec_index {w : Word} {n : Nat} (h : ruleOf config s.draw i s.advance = .ok (s.advance.setI w))
    (hw : w.toNat = n) :
    ∃ t, exec i s = .next t ∧ t.i.toNat = n ∧ t.pc = s.pc + 2 ∧ ChangesOnly [.pc, .i] s t :=
  ⟨_, exec_ok h, hw, rfl, changesOnly_index s w⟩

/-- Settles O22: the rule sets I to the zero-extended NNN. -/
theorem loadIndexSetsI : Obligations.LoadIndexSetsI :=
  fun nnn _ => exec_index rfl (address_toNat nnn)

/-- Settles O23: the rules set I to the sum, wrapped at 16 bits (D18), and to the glyph's address (D8), which does not
wrap. -/
theorem addIndexAndGlyphAddressSetI : Obligations.AddIndexAndGlyphAddressSetI :=
  fun _ _ => ⟨exec_index rfl (indexSum_toNat _ _), exec_index rfl (glyphAddress_toNat _)⟩

/-! ## Stores and loads at I (R193 to R196) -/

/-- Settles O24: the digits of V[X] are stored from I up, and a store changes no other byte. -/
theorem bcdStoresDecimalDigits : Obligations.BcdStoresDecimalDigits := by
  intro x s h
  obtain ⟨hhundreds, htens, hunits, hsum⟩ := read_bcd_isDecimalOf s.mem s.i.toNat (s.getV x)
  exact ⟨_, exec_ldB_ok h, hhundreds, htens, hunits, hsum, rfl, changesOnly_store s (bcdDigits (s.getV x))⟩

/-- Settles O25: V[k] is dumped to I + k, and a store changes no other byte. -/
theorem registerDumpStoresV0ToVx : Obligations.RegisterDumpStoresV0ToVx := by
  intro x s h
  have hframe := changesOnly_store s (s.regsUpTo x)
  rw [regsUpTo_length] at hframe
  exact ⟨_, exec_stRegs_ok h, fun k hk => read_dump s hk, rfl, hframe⟩

/-- Settles O26: V[k] is loaded from I + k for k up to X, and a load changes no part but these registers. -/
theorem registerLoadFillsV0ToVx : Obligations.RegisterLoadFillsV0ToVx := by
  intro x s h
  refine ⟨_, exec_ldRegs_ok h, fun k hk => getV_load s hk, fun k hk => getV_load_above s hk, ?_, fun p hv hpc => ?_⟩
  · exact same_loadRegsFrom (p := .pc) s.advance 0 _ (by simp)
  · exact Part.same_trans (changesOnly_advance s p (by simpa using hpc)) (same_loadRegsFrom _ 0 _ hv)

end IndexMemory

end Sys2Proof.Machine

/-! # Proofs: display (44_display.md)

Layers: the frame of an update of the display; the sprite a draw reads and the pixels it covers; the equation of DRW
(R212); the statements, the second draw's from the first draw's. -/

namespace Sys2Proof.Machine

section DisplayProofs
variable {s t : State} {x y : Reg} {n : Nibble} {p : Part}

/-! ## Frame -/

/-- A new display and DIRTY on the advanced state: of the parts that are not pixels only PC and DIRTY change (R211). -/
theorem same_updateDisplay (s : State) (d : Display) (hpixel : p.isPixel = false) (hp : p ∉ [Part.pc, .dirty]) :
    p.same s ((s.advance.setDisp d).setDirty true) := by
  cases p with
  | pc | dirty => simp at hp
  | pixel => cases hpixel
  | _ => rfl

/-- Settles O30: the rule puts the clear display and sets DIRTY on the advanced state. -/
theorem clearUnsetsEveryPixel : Obligations.ClearUnsetsEveryPixel :=
  fun s => ⟨_, exec_ok rfl, Display.pixel_clear, rfl, rfl, fun _ => same_updateDisplay s Display.clear⟩

/-! ## The sprite (R212) -/

/-- The bytes a draw reads, the top row's first (R212). -/
def spriteBytes (s : State) (n : Nibble) : List Byte :=
  (List.range n.toNat).map fun r => s.mem.read (s.i.toNat + r)

@[simp] theorem spriteBytes_length (s : State) (n : Nibble) : (spriteBytes s n).length = n.toNat := by
  simp [spriteBytes]

/-- The pixels the drawn rows cover are the ones the claims name. -/
theorem covers_spriteBytes_iff (s : State) (x0 y0 : Byte) (n : Nibble) (px : Fin 64) (py : Fin 32) :
    Blit.Covers (spriteBytes s n) x0.toNat y0.toNat px py ↔ SpriteCovers s x0 y0 n px py := by
  simp [Blit.Covers, SpriteCovers, spriteBytes]

/-- Which pixels a sprite covers goes by I and the memory alone. -/
theorem spriteCovers_congr (hi : t.i = s.i) (hmem : ∀ a, t.mem.read a = s.mem.read a) (x0 y0 : Byte) (n : Nibble)
    (px : Fin 64) (py : Fin 32) : SpriteCovers t x0 y0 n px py ↔ SpriteCovers s x0 y0 n px py := by
  simp only [SpriteCovers, hi, hmem]

/-! ## A draw inside memory (R212) -/

/-- What DRW draws: the sprite at I on the display, at the coordinates in V[X] and V[Y]. -/
def drawnSprite (s : State) (x y : Reg) (n : Nibble) : Blit :=
  s.disp.blit config (s.getV x).toNat (s.getV y).toNat (spriteBytes s n)

theorem exec_drw_ok (h : n.toNat = 0 ∨ s.i.toNat + n.toNat - 1 ≤ 0xFFF) :
    exec (.drw x y n) s = .next (((s.advance.setDisp (drawnSprite s x y n).disp).setV VF
      (flagByte (drawnSprite s x y n).hit)).setDirty true) := by
  have hload : loadBytes config s.advance s.advance.base n.toNat = .ok (spriteBytes s n) :=
    loadBytes_ok (by rw [State.advance_base]; omega)
  exact exec_ok (by simp only [ruleOf, drwRule, hload, drawnSprite, State.advance_disp, State.advance_getV])

open Classical in
/-- Everything a draw does to the display: exactly the covered pixels are inverted, and it hits iff one of them was
set. -/
theorem drawnSprite_spec (s : State) (x y : Reg) (n : Nibble) :
    (∀ px py, (drawnSprite s x y n).disp.pixel px py =
      if SpriteCovers s (s.getV x) (s.getV y) n px py then !s.disp.pixel px py else s.disp.pixel px py) ∧
    ((drawnSprite s x y n).hit = true ↔
      ∃ px py, SpriteCovers s (s.getV x) (s.getV y) n px py ∧ s.disp.pixel px py = true) := by
  have hrows : (spriteBytes s n).length ≤ 31 := by rw [spriteBytes_length]; omega
  have hblit := Blit.rows_spec (spriteBytes s n) (s.getV x).toNat (s.getV y).toNat hrows ⟨s.disp, false⟩
  simp only [covers_spriteBytes_iff, Bool.false_eq_true, false_or] at hblit
  exact hblit

/-- VF ends as the collision flag (R212). -/
theorem getV_VF_draw (s : State) (f : Bool) : ((s.setV VF (flagByte f)).setDirty true).getV 15 = flagByte f :=
  State.setV_getV_self s VF _

/-- A draw's frame: the update of the display, then the flag. -/
theorem same_draw (s : State) (d : Display) (f : Bool) (hpixel : p.isPixel = false)
    (hp : p ∉ [Part.pc, .v 15, .dirty]) :
    p.same s (((s.advance.setDisp d).setV VF (flagByte f)).setDirty true) := by
  simp only [List.mem_cons, List.not_mem_nil, or_false, not_or] at hp
  obtain ⟨hpc, hv, hdirty⟩ := hp
  have hflag := changesOnly_setV ((s.advance.setDisp d).setDirty true) VF (flagByte f)
  exact Part.same_trans (same_updateDisplay s d hpixel (by simp [hpc, hdirty])) (hflag p (by simpa using hv))

/-- Settles O31: the equation of DRW, with what the drawn sprite does to each pixel and when it hits. -/
theorem drawInvertsExactlyTheSpritesPixels : Obligations.DrawInvertsExactlyTheSpritesPixels := by
  intro x y n s h
  obtain ⟨hpixel, hhit⟩ := drawnSprite_spec s x y n
  refine ⟨_, exec_drw_ok h, fun px py hcov => (hpixel px py).trans (if_pos hcov),
    fun px py hcov => (hpixel px py).trans (if_neg hcov), fun hset => ?_, fun hnone => ?_, rfl, rfl,
    fun _ => same_draw s _ _⟩
  · rw [getV_VF_draw, hhit.mpr hset]
    rfl
  · rw [getV_VF_draw, Bool.eq_false_iff.mpr (mt hhit.mp hnone)]
    rfl

/-! ## The same sprite twice (R212 (4)) -/

/-- Settles O32: O31 of both draws. The first one changes neither I, memory nor the coordinate registers, so the second
covers the same pixels and finds each of them inverted. -/
theorem drawingTwiceRestoresTheDisplay : Obligations.DrawingTwiceRestoresTheDisplay := by
  intro x y n s hx hy h
  obtain ⟨t, hdrawt, hcovt, huncovt, -, -, -, -, hframe⟩ := drawInvertsExactlyTheSpritesPixels x y n s (by omega)
  have hi : t.i = s.i := hframe .i rfl (by simp)
  obtain ⟨u, hdrawu, hcovu, huncovu, hset, hclear, -⟩ :=
    drawInvertsExactlyTheSpritesPixels x y n t (by rw [hi]; omega)
  have hvx : t.getV x = s.getV x := hframe (.v x) rfl (by simp [hx])
  have hvy : t.getV y = s.getV y := hframe (.v y) rfl (by simp [hy])
  have hmem (a : Nat) : t.mem.read a = s.mem.read a := hframe (.mem a) rfl (by simp)
  simp only [hvx, hvy, spriteCovers_congr hi hmem] at hcovu huncovu hset hclear
  have hfound : (∃ px py, SpriteCovers s (s.getV x) (s.getV y) n px py ∧ t.disp.pixel px py = true) ↔
      ∃ px py, SpriteCovers s (s.getV x) (s.getV y) n px py ∧ s.disp.pixel px py = false :=
    exists₂_congr fun px py => and_congr_right fun hcov => by rw [hcovt px py hcov, Bool.not_eq_true']
  refine ⟨t, u, hdrawt, hdrawu, fun px py => ?_, fun hone => ?_, fun hunset => hset (hfound.mpr hunset)⟩
  · by_cases hcov : SpriteCovers s (s.getV x) (s.getV y) n px py
    · rw [hcovu px py hcov, hcovt px py hcov, Bool.not_not]
    · rw [huncovu px py hcov, huncovt px py hcov]
  · by_contra hnone
    have hzero := hclear (mt hfound.mp hnone)
    exact absurd (hone.symm.trans hzero) (by decide)

end DisplayProofs

end Sys2Proof.Machine

/-! # Proofs: keypad (45_keypad.md)

Layers: a skip on the level of a named key, shared by SKP and SKNP (R225, R226); the equations of LD Vx, K with and
without a key pressed (R227); the statements. -/

namespace Sys2Proof.Machine

section KeypadProofs
variable {s : State} {i : Instr} {x : Reg} {k : Key}

/-! ## Skips on a key (R225, R226, R228) -/

/-- An instruction whose rule is a key skip on V[X] = k changes only PC, by 4 where `f` of the level of k says so and by
2 where not. -/
theorem exec_keySkip {f : Bool → Bool} {c : Prop} [Decidable c] (hk : (s.getV x).toNat = k.val)
    (hc : f (s.keyDown k) = true ↔ c) (h : ruleOf config s.draw i s.advance = keySkip f x s.advance) :
    ∃ t, exec i s = .next t ∧ t.pc = (if c then s.pc + 4 else s.pc + 2) ∧ ChangesOnly [.pc] s t :=
  exec_skip hc (h.trans (keySkip_named f hk))

/-- Settles O33: SKP is the key skip on the level, SKNP the one on its negation. -/
theorem keySkipsTestTheNamedKey : Obligations.KeySkipsTestTheNamedKey := by
  intro x k s hk
  have hup : (!s.keyDown k) = true ↔ ¬ s.keyDown k = true := by simp
  have hsknp := exec_keySkip (i := .sknp x) hk hup rfl
  rw [ite_not] at hsknp
  exact ⟨exec_keySkip (f := id) hk Iff.rfl rfl, hsknp⟩

/-! ## The wait for a key (R227, R228) -/

@[simp] theorem State.advance_firstKey (s : State) : s.advance.firstKey = s.firstKey := rfl

theorem key_byte_toNat (k : Key) : (BitVec.ofNat 8 k.val).toNat = k.val :=
  Nat.mod_eq_of_lt (by omega)

theorem exec_ldVxK_pressed (h : s.firstKey = some k) :
    exec (.ldVxK x) s = .next (s.advance.setV x (BitVec.ofNat 8 k.val)) :=
  exec_ok (by simp [ruleOf, ldVxKRule, h])

/-- PC set back undoes the baseline advance. -/
@[simp] theorem State.advance_setPc_pc (s : State) : s.advance.setPc s.pc = s := rfl

theorem exec_ldVxK_none (h : s.firstKey = none) : exec (.ldVxK x) s = .next s :=
  exec_ok (by simp [ruleOf, ldVxKRule, h])

/-- Settles O35: the scan finds the least pressed key, or finds none. -/
theorem waitForKeyTakesTheLeastPressedKey : Obligations.WaitForKeyTakesTheLeastPressedKey := by
  intro x s
  constructor
  · intro k hdown hleast
    refine ⟨_, exec_ldVxK_pressed (firstKey_eq_some hdown hleast), ?_, rfl, changesOnly_result s x _⟩
    rw [State.setV_getV_self, key_byte_toNat]
  · intro hup
    exact exec_ldVxK_none (firstKey_eq_none.mpr hup)

end KeypadProofs

end Sys2Proof.Machine

/-! # Proofs: timers (46_timers.md)

Layers: the frames of a change of DT and of ST; the equation of a tick (R243, R244); `k` ticks in a row, by induction;
the statements. -/

namespace Sys2Proof.Machine

section TimerProofs
variable {s : State}

/-! ## Frames -/

/-- A change of DT changes no other part. -/
theorem changesOnly_setDt (s : State) (b : Byte) : ChangesOnly [.dt] s (s.setDt b) := by
  intro p hp
  cases p with
  | dt => simp at hp
  | _ => rfl

/-- A change of ST changes no other part. -/
theorem changesOnly_setSt (s : State) (b : Byte) : ChangesOnly [.st] s (s.setSt b) := by
  intro p hp
  cases p with
  | st => simp at hp
  | _ => rfl

/-! ## The tick (R243, R244) -/

theorem tick_running (h : s.fault = none) :
    tick s = ((s.setDt (countDown s.dt)).setSt (countDown s.st), decide (s.st = 1)) := by
  simp [tick, h]

theorem tick_sounds_iff (h : s.fault = none) : (tick s).2 = true ↔ s.st.toNat = 1 := by
  rw [tick_running h, decide_eq_true_iff]
  exact BitVec.toNat_inj.symm

theorem tick_st_toNat (h : s.fault = none) : (tick s).1.st.toNat = s.st.toNat - 1 := by
  rw [tick_running h]
  exact countDown_toNat s.st

theorem tick_dt_toNat (h : s.fault = none) : (tick s).1.dt.toNat = s.dt.toNat - 1 := by
  rw [tick_running h]
  exact countDown_toNat s.dt

/-- A tick changes DT and ST and no other part, halted or not (R243, R272). -/
theorem changesOnly_tick (s : State) : ChangesOnly [.dt, .st] s (tick s).1 := by
  by_cases h : s.fault = none
  · rw [tick_running h]
    exact (changesOnly_setDt s _).trans (changesOnly_setSt _ _)
  · rw [tick_halted h]
    intro p _
    cases p <;> rfl

/-- A tick latches no condition and clears none. -/
theorem tick_fault (s : State) : (tick s).1.fault = s.fault :=
  changesOnly_tick s .fault (by simp)

/-! ## Ticks in a row (R243) -/

theorem ticks_fault (k : Nat) (s : State) : (ticks k s).fault = s.fault := by
  induction k generalizing s with
  | zero => rfl
  | succ k ih => exact (ih (tick s).1).trans (tick_fault s)

/-- ST after `k` ticks: each counts it down by one, and at 0 it stays. -/
theorem ticks_st_toNat (k : Nat) (h : s.fault = none) : (ticks k s).st.toNat = s.st.toNat - k := by
  induction k generalizing s with
  | zero => rfl
  | succ k ih =>
    have hrest : (ticks (k + 1) s).st.toNat = (tick s).1.st.toNat - k := ih ((tick_fault s).trans h)
    rw [hrest, tick_st_toNat h]
    omega

/-- Settles O38: the tick after `k` ticks sounds iff ST is 1 there, and ST is `k` less than at first. -/
theorem exactlyTheNthTickSounds : Obligations.ExactlyTheNthTickSounds := by
  intro s k h
  rw [tick_sounds_iff ((ticks_fault k s).trans h), ticks_st_toNat k h]
  omega

/-- Settles O37: the equation of a tick on a running machine, and that of one on a halted machine. -/
theorem tickCountsBothTimersDown : Obligations.TickCountsBothTimersDown :=
  fun s => ⟨fun h => ⟨tick_dt_toNat h, tick_st_toNat h, tick_sounds_iff h, changesOnly_tick s⟩, tick_halted⟩

/-! ## The timer instructions (R240, R241, R242) -/

/-- Settles O36: each rule copies one byte on the advanced state. -/
theorem timerInstructionsCopyTimers : Obligations.TimerInstructionsCopyTimers :=
  fun x s =>
    ⟨⟨_, exec_ok rfl, State.setV_getV_self _ x _, rfl, changesOnly_result s x _⟩,
      ⟨_, exec_ok rfl, rfl, rfl, (changesOnly_advance s).trans (changesOnly_setDt _ _)⟩,
      ⟨_, exec_ok rfl, rfl, rfl, (changesOnly_advance s).trans (changesOnly_setSt _ _)⟩⟩

end TimerProofs

end Sys2Proof.Machine

/-! # Proofs: exceptions and the host interface (60_exceptions.md)

Layers: the instructions that latch a stack or key condition (R262, R263, R266); the frames of the host's own writes and
the readout of a pixel (R278, R279); a session's answer to an operation that is allowed (R285, R306); the statements. -/

namespace Sys2Proof.Machine

section ExceptionProofs
variable {s : State} {i : Instr} {x : Reg} {c : Session} {op : HostOp}

/-! ## The stack's limits and the key index (R262, R263, R266) -/

theorem exec_ret_empty (h : s.sp.val = 0) : exec .ret s = .next { s with fault := some .stackUnderflow } :=
  exec_fault (retRule_empty h)

/-- Settles O13: the fault equations of CALL and RET. -/
theorem stackLimitsFault : Obligations.StackLimitsFault :=
  ⟨fun _ _ h => exec_call_full h, fun _ h => exec_ret_empty h⟩

/-- An instruction whose rule is a key skip latches the condition where V[X] names no key. -/
theorem exec_keySkip_above {f : Bool → Bool} (hx : 15 < (s.getV x).toNat)
    (h : ruleOf config s.draw i s.advance = keySkip f x s.advance) :
    exec i s = .next { s with fault := some .keyIndexOutOfRange } :=
  exec_fault (h.trans (keySkip_above f hx))

/-- Settles O34: SKP and SKNP are both key skips. -/
theorem keyIndexAbove15Faults : Obligations.KeyIndexAbove15Faults :=
  fun x s hx => ⟨exec_keySkip_above hx (skpRule_eq_keySkip x s.advance),
    exec_keySkip_above hx (sknpRule_eq_keySkip x s.advance)⟩

/-! ## The ports of the host (R278, R279) -/

@[simp] theorem State.setKeyLevel_keyDown_self (s : State) (k : Key) (b : Bool) : (s.setKeyLevel k b).keyDown k = b :=
  Vector.getElem_set_self k.isLt

/-- A change of one key's level changes no other part. -/
theorem changesOnly_setKeyLevel (s : State) (k : Key) (b : Bool) : ChangesOnly [.key k] s (s.setKeyLevel k b) := by
  intro p hp
  cases p with
  | key j =>
    have hne : j ≠ k := by simpa using hp
    exact Vector.getElem_set_ne k.isLt j.isLt fun e => hne (Fin.ext e.symm)
  | _ => rfl

/-- A change of DIRTY changes no other part. -/
theorem changesOnly_setDirty (s : State) (b : Bool) : ChangesOnly [.dirty] s (s.setDirty b) := by
  intro p hp
  cases p with
  | dirty => simp at hp
  | _ => rfl

/-- The index y * 64 + x of the readout splits back into row y and column x (D23). -/
theorem readDisplay_getElem (s : State) (x : Fin 64) (y : Fin 32) :
    (readDisplay s)[y.val * 64 + x.val]'(by omega) = s.disp.pixel x y := by
  have hrow : (y.val * 64 + x.val) / 64 = y.val := by omega
  have hcol : (y.val * 64 + x.val) % 64 = x.val := by omega
  simp only [readDisplay, Vector.getElem_ofFn, hrow, hcol]
  rfl

/-- Settles O55: each write is a change of its own part, each read answers the state as it was; none of them looks at
FAULT. -/
theorem hostPortsTouchOnlyTheirOwnPart : Obligations.HostPortsTouchOnlyTheirOwnPart :=
  fun s =>
    ⟨fun k b => ⟨_, rfl, s.setKeyLevel_keyDown_self k b, changesOnly_setKeyLevel s k b⟩,
      ⟨_, rfl, rfl, changesOnly_setDirty s false⟩,
      ⟨_, rfl, readDisplay_getElem s⟩, rfl, rfl⟩

/-! ## Sessions (R285, R306) -/

/-- Every operation of the host answers, a step because every step completes (R120). -/
theorem exists_perform_eq_next (op : HostOp) (s : State) : ∃ t r, perform op s = .next (t, r) := by
  cases op with
  | step =>
    obtain ⟨t, ht⟩ := exists_step_eq_next s
    exact ⟨t, .stepped (reportOf config s), by simp only [perform, ht]⟩
  | _ => exact ⟨_, _, rfl⟩

/-- In a session an operation that the boot order allows answers, and moves the session on. -/
theorem session_answers (h : c.allowed op = .ok ()) : ∃ t r, c.perform op = .next (c.moveOn t op r, r) := by
  obtain ⟨t, r, hp⟩ := exists_perform_eq_next op c.machine
  exact ⟨t, r, session_next h hp⟩

theorem allowed_step_loaded (h : c.programLoaded = true) : c.allowed .step = .ok () := by
  simp [Session.allowed, h]

theorem allowed_step_unloaded (h : c.programLoaded = false) : c.allowed .step = .error .stepBeforeLoad := by
  simp [Session.allowed, h]

/-- The boot order restricts only steps and loads. -/
theorem allowed_of_not_step_not_load (c : Session) (hstep : op ≠ .step) (hprogram : ∀ b, op ≠ .loadProgram b)
    (hfont : ∀ b, op ≠ .loadFont b) : c.allowed op = .ok () := by
  cases op with
  | step => exact absurd rfl hstep
  | loadProgram b => exact absurd rfl (hprogram b)
  | loadFont b => exact absurd rfl (hfont b)
  | _ => rfl

/-- Settles O57: what the boot order allows is what answers, and an answer is the operation's own on the machine. -/
theorem stepsHaveAMoveOnlyAfterLoading : Obligations.StepsHaveAMoveOnlyAfterLoading := by
  refine ⟨fun c hc => session_refused (allowed_step_unloaded hc), fun c hc => ?_,
    fun op c hstep hprogram hfont => ?_, fun op c c' r hanswer => ?_⟩
  · obtain ⟨t, r, ht⟩ := session_answers (allowed_step_loaded hc)
    exact ⟨_, r, ht, rfl⟩
  · obtain ⟨t, r, ht⟩ := session_answers (allowed_of_not_step_not_load c hstep hprogram hfont)
    exact ⟨_, r, ht⟩
  · obtain ⟨-, t, hp, rfl⟩ := session_cases hanswer
    rwa [moveOn_machine]

end ExceptionProofs

end Sys2Proof.Machine

/-! # Proofs: reset, loads, the boot order and hazards (70_reset_and_hazards.md)

Layers: the reset state part by part (R37, R300); what a load leaves (R303 to R305); where each operation moves a session
(R285, R306); the machine that masks addresses, operation by operation up to the step (R316, D5). -/

namespace Sys2Proof.Machine

/-! ## Construct (R300) -/

@[simp] theorem State.reset_getV (r : Reg) : State.reset.getV r = 0 := Vector.getElem_replicate r.isLt

@[simp] theorem State.reset_stack_getElem (k : Fin 16) : State.reset.stack[k] = 0 := Vector.getElem_replicate k.isLt

@[simp] theorem State.reset_keyDown (k : Key) : State.reset.keyDown k = false := Vector.getElem_replicate k.isLt

/-- Settles O1: construct differs from the reset state in the model's own count of draws alone. -/
theorem constructGivesResetState : Obligations.ConstructGivesResetState :=
  fun _ => ⟨_, rfl, rfl, State.reset_getV, rfl, rfl, State.reset_stack_getElem, fun _ => rfl, Display.pixel_clear, rfl,
    State.reset_keyDown, rfl, rfl, rfl⟩

/-! ## Loads (R303 to R305) -/

section Loads
variable {s : State} {base limit : Nat} {bytes : List Byte}

/-- A load that fits: the image in order from the base up, and the frame. -/
theorem loadImage_spec (s : State) (h : base + bytes.length ≤ limit) :
    ∃ t, loadImage base limit bytes s = (t, .success) ∧
      (∀ k (hk : k < bytes.length), t.mem.read (base + k) = bytes[k]) ∧
      ChangesOnly (cellsAt base bytes.length) s t :=
  ⟨_, loadImage_fits s h, fun _ hk => read_writeBytes_add s.mem base hk, changesOnly_setMem s base bytes⟩

theorem perform_loadProgram {t : State} {r : LoadResult} (h : loadImage 0x200 4096 bytes s = (t, r)) :
    perform (.loadProgram bytes) s = .next (t, .loaded r) := by
  simp only [perform, loadProgram, h]

theorem perform_loadFont {t : State} {r : LoadResult} (h : loadImage 0x050 0x200 bytes s = (t, r)) :
    perform (.loadFont bytes) s = .next (t, .loaded r) := by
  simp only [perform, loadFont, show config.fontBase = 0x050 from rfl, h]

/-- Settles O52: an image of at most 3584 bytes ends below 0x1000. -/
theorem loadProgramCopiesTheImage : Obligations.LoadProgramCopiesTheImage := by
  intro bytes s h
  obtain ⟨t, hload, hspec⟩ := loadImage_spec s (show 0x200 + bytes.length ≤ 4096 by omega)
  exact ⟨t, perform_loadProgram hload, hspec⟩

/-- Settles O53: a longer image would end above 0xFFF. -/
theorem oversizedImageIsRejectedWhole : Obligations.OversizedImageIsRejectedWhole :=
  fun _ s _ => perform_loadProgram (loadImage_too_large s (by omega))

/-- Settles O54: from 0x050 up, 432 bytes end below 0x200 and one more does not. -/
theorem loadFontCopiesBelowTheProgram : Obligations.LoadFontCopiesBelowTheProgram := by
  intro bytes s
  constructor
  · intro h
    obtain ⟨t, hload, hspec⟩ := loadImage_spec s (show 0x050 + bytes.length ≤ 0x200 by omega)
    exact ⟨t, perform_loadFont hload, hspec⟩
  · intro h
    exact perform_loadFont (loadImage_too_large s (by omega))

/-- A program load succeeds iff the image fits (R303, R304). -/
theorem loadProgram_success_iff : (loadProgram bytes s).2 = .success ↔ bytes.length ≤ 3584 := by
  by_cases h : bytes.length ≤ 3584
  · simp [loadProgram, loadImage_fits s (show 0x200 + bytes.length ≤ 4096 by omega), h]
  · simp [loadProgram, loadImage_too_large s (show 4096 < 0x200 + bytes.length by omega), h]

end Loads

/-! ## The boot order (R285, R306) -/

section BootOrder
variable {c : Session} {op : HostOp} {bytes : List Byte}

theorem allowed_loadProgram_started (h : c.started = true) :
    c.allowed (.loadProgram bytes) = .error .loadAfterFirstStep := by
  simp [Session.allowed, h]

theorem allowed_loadFont_started (h : c.started = true) :
    c.allowed (.loadFont bytes) = .error .loadAfterFirstStep := by
  simp [Session.allowed, h]

theorem allowed_loadProgram_loaded (h : c.started = false) (h' : c.programLoaded = true) :
    c.allowed (.loadProgram bytes) = .error .programAlreadyLoaded := by
  simp [Session.allowed, h, h']

theorem allowed_loadProgram_fresh (h : c.started = false) (h' : c.programLoaded = false) :
    c.allowed (.loadProgram bytes) = .ok () := by
  simp [Session.allowed, h, h']

theorem allowed_loadFont_unstarted (h : c.started = false) : c.allowed (.loadFont bytes) = .ok () := by
  simp [Session.allowed, h]

/-- Only construct and a step move the mark of the first step. -/
theorem moveOn_started (t : State) (r : Response) (hconstruct : op ≠ .construct) (hstep : op ≠ .step) :
    (c.moveOn t op r).started = c.started := by
  cases op with
  | construct => exact absurd rfl hconstruct
  | step => exact absurd rfl hstep
  | _ => rfl

/-- Only construct and a program load move the mark of the load. -/
theorem moveOn_programLoaded (t : State) (r : Response) (hconstruct : op ≠ .construct)
    (hprogram : ∀ b, op ≠ .loadProgram b) : (c.moveOn t op r).programLoaded = c.programLoaded := by
  cases op with
  | construct => exact absurd rfl hconstruct
  | loadProgram b => exact absurd rfl (hprogram b)
  | _ => rfl

/-- A program load marks the session iff it succeeded, and never takes the mark away. -/
theorem moveOn_loadProgram_programLoaded (t : State) (r : Response) :
    (c.moveOn t (.loadProgram bytes) r).programLoaded = true ↔ c.programLoaded = true ∨ r = .loaded .success := by
  simp [Session.moveOn]

/-- Only construct takes the mark of the load away. -/
theorem moveOn_keeps_programLoaded (t : State) (r : Response) (hconstruct : op ≠ .construct)
    (h : c.programLoaded = true) : (c.moveOn t op r).programLoaded = true := by
  cases op with
  | loadProgram b => exact (moveOn_loadProgram_programLoaded t r).mpr (.inl h)
  | _ => exact (moveOn_programLoaded t r hconstruct nofun).trans h

/-- The one program load answers, and marks the session iff the image fits. -/
theorem session_loadProgram (h : c.started = false) (h' : c.programLoaded = false) :
    ∃ c' r, c.perform (.loadProgram bytes) = .next (c', r) ∧ (c'.programLoaded = true ↔ bytes.length ≤ 3584) := by
  refine ⟨_, _, session_next (allowed_loadProgram_fresh h h') rfl, ?_⟩
  rw [moveOn_loadProgram_programLoaded, h', ← loadProgram_success_iff (s := c.machine)]
  simp

/-- Settles O56: the refusals and the answers by what the boot order allows, and both marks by where an operation moves
the session. -/
theorem loadsHaveAMoveOnlyBeforeTheFirstStep : Obligations.LoadsHaveAMoveOnlyBeforeTheFirstStep := by
  refine ⟨fun c _ h => ⟨session_refused (allowed_loadProgram_started h), session_refused (allowed_loadFont_started h)⟩,
    fun c _ h h' => session_refused (allowed_loadProgram_loaded h h'), fun c _ h h' => session_loadProgram h h',
    fun c _ h => ⟨_, _, session_next (allowed_loadFont_unstarted h) rfl⟩, fun op c c' r hanswer => ?_⟩
  obtain ⟨-, t, -, rfl⟩ := session_cases hanswer
  refine ⟨moveOn_started t r, moveOn_programLoaded t r, moveOn_keeps_programLoaded t r, ?_, ?_⟩
  · rintro rfl
    rfl
  · rintro rfl
    exact ⟨rfl, rfl⟩

end BootOrder

/-! ## The machine that masks addresses (R316, D5) -/

section Masking
variable {s t : State} {w : Word} {b : Byte} {i : Instr} {base n : Nat}

/-- The decided parameters but for ADDR_POLICY = mask (log 6). -/
abbrev maskingConfig : Config := { config with addrPolicy := .mask }

/-! ### Accesses inside memory -/

theorem loadBytes_masking {bs : List Byte} (h : loadBytes config s base n = .ok bs) :
    loadBytes maskingConfig s base n = .ok bs := by
  unfold loadBytes at h
  split at h
  next hok =>
    rw [← h, ← Memory.readBytes_mask s.mem ((accessOk_iff base n).mp hok)]
    rfl
  next => cases h

theorem storeBytes_masking {bs : List Byte} (hbs : bs ≠ []) (h : storeBytes config s base bs = .ok t) :
    storeBytes maskingConfig s base bs = .ok t := by
  obtain ⟨hb, rfl⟩ := storeBytes_cases hbs h
  rw [← Memory.writeBytes_mask s.mem hb]
  rfl

theorem fetchWord_masking (hp : s.pc.toNat ≤ 0xFFE) : fetchWord maskingConfig s = fetchWord config s := by
  have hlow : s.pc.toNat + 1 < 4096 := by omega
  rw [fetchWord_ok hp]
  unfold fetchWord
  rw [cellOf_mask (Nat.lt_of_succ_lt hlow), cellOf_mask hlow]
  rfl

/-! ### The rules -/

/-- Which bit of a sprite row falls where does not go by ADDR_POLICY. -/
theorem columns_masking (row : Byte) (x0 : Nat) (y : Fin 32) (blit : Blit) (cols : List Nat) :
    Blit.columns maskingConfig row x0 y blit cols = Blit.columns config row x0 y blit cols := by
  induction cols generalizing blit with
  | nil => rfl
  | cons col cols ih => exact ih _

theorem rows_masking (x0 y0 : Nat) (blit : Blit) (sprite : List Byte) :
    Blit.rows maskingConfig x0 y0 blit sprite = Blit.rows config x0 y0 blit sprite := by
  induction sprite generalizing y0 blit with
  | nil => rfl
  | cons row rest ih => simp only [Blit.rows, columns_masking, ih]

theorem drwRule_masking {x y : Reg} {m : Nibble} (h : drwRule config x y m s = .ok t) :
    drwRule maskingConfig x y m s = .ok t := by
  unfold drwRule Display.blit at h ⊢
  split at h
  next sprite hload => simpa only [loadBytes_masking hload, rows_masking] using h
  next => cases h

theorem ldRegsRule_masking {x : Reg} (h : ldRegsRule config x s = .ok t) : ldRegsRule maskingConfig x s = .ok t := by
  unfold ldRegsRule at h ⊢
  split at h
  next bs hload => simpa only [loadBytes_masking hload] using h
  next => cases h

/-- A rule that completes does the same where addresses are masked: only four rules access memory. -/
theorem ruleOf_masking (h : ruleOf config b i s = .ok t) : ruleOf maskingConfig b i s = .ok t := by
  cases i with
  | drw => exact drwRule_masking h
  | ldRegs => exact ldRegsRule_masking h
  | ldB => exact storeBytes_masking (List.cons_ne_nil _ _) h
  | stRegs x => exact storeBytes_masking (regsUpTo_ne_nil s x) h
  | _ => exact h

/-! ### The step -/

theorem decodeWord_masking (w : Word) : decodeWord maskingConfig w = decodeWord config w := rfl

theorem stepWith_decoded {c : Config} (hf : s.fault = none) (hw : fetchWord c s = .ok w)
    (hd : decodeWord c w = .ok i) : stepWith c b s = execute (ruleOf c b i) s := by
  simp [stepWith, hf, hw, hd]

theorem stepWith_unsupported {c : Config} {e : DecodeReject} (hf : s.fault = none) (hw : fetchWord c s = .ok w)
    (hd : decodeWord c w = .error e) : stepWith c b s = .next s.advance := by
  simp [stepWith, hf, hw, hd, execUnsupported]

/-- Settles O45: a step that leaves no fault fetched a word inside memory, and either its rule completed or the word is
unsupported. -/
theorem maskingMachineAgreesUnlessAFaultIsRaised : Obligations.MaskingMachineAgreesUnlessAFaultIsRaised := by
  intro s t hs ht
  obtain ⟨hf, rfl⟩ | ⟨-, -, rfl⟩ | ⟨hf, hp, w, i, hw, hd, he⟩ | ⟨hf, hp, w, e, hw, hd, rfl⟩ := step_cases hs
  · exact absurd ht hf
  · cases ht
  · obtain hr | ⟨c, -, rfl⟩ := exec_cases he
    · rw [stepWith_decoded hf ((fetchWord_masking hp).trans hw) ((decodeWord_masking w).trans hd)]
      exact execute_ok (ruleOf_masking hr)
    · cases ht
  · exact stepWith_unsupported hf ((fetchWord_masking hp).trans hw) ((decodeWord_masking w).trans hd)

end Masking

end Sys2Proof.Machine
